-- ==== Sys2Proof/Word.lean ====
section
/-! DEFINITION. The word type. A command word is 64 bits (spec/30_encoding.md R70, R71) and so is a
symbol word (R77). -/

namespace Sys2Proof

/-- One word of a command port: a command word `CW` (R71) or a symbol word (R77). -/
abbrev Word := BitVec 64

/-- A symbol carried as `zext_64(s)` (R77): the bits of `Sym` in the low `SYM_BITS` positions. -/
abbrev SymWord := Word

end Sys2Proof
end

