-- ==== Sys2Proof/Config.lean ====
section
/-! DEFINITION. What an implementation fixes: the configuration `CFG` of an instance
(spec/00_scope.md R5 to R7), as plain data, and the two free mapping functions. What `ENC` and `DEC`
of a configuration compute, and when a configuration is well-formed, is in Machine/Mapping.lean. -/

namespace Sys2Proof

/-- A free symbol mapping, integer to symbol, for each number `k`: any pure function at all
(R7: "the core never picks these, only invokes them"). It has no body, so nothing is known of it. -/
opaque Config.freeEnc : Nat → Nat → SymWord

/-- A free symbol mapping, symbol to integer or invalid, for each number `k` (R7). It has no body. -/
opaque Config.freeDec : Nat → SymWord → Option Nat

/-- The caller-supplied function `ENC` (`encodeSymbol`, R5), named as plain data.
DESIGN CHOICE, safe (log 5). -/
inductive EncMap where
  /-- The identity alphabet of R12 and spec/95_test_vectors.md: `ENC(v) = v`. -/
  | identity
  /-- An alphabet written out: `ENC(v)` is entry `v` of the list, 0 beyond it. -/
  | table (syms : List SymWord)
  /-- Any other function: `Config.freeEnc k`. -/
  | free (k : Nat)
  deriving DecidableEq, Repr

/-- The caller-supplied function `DEC` (`decodeSymbol`, R5), named as plain data.
DESIGN CHOICE, safe (log 5). -/
inductive DecMap where
  /-- The identity alphabet: `DEC(s) = s` below `2^SW`, otherwise invalid. -/
  | identity
  /-- An alphabet written out as (symbol, code) pairs, the first pair for a symbol counting; a symbol
  that stands in no pair is invalid. -/
  | table (codes : List (SymWord × Nat))
  /-- Any other function: `Config.freeDec k`. -/
  | free (k : Nat)
  deriving DecidableEq, Repr

/-- The configuration `CFG` of one instance (R5), fixed for its life. -/
structure Cfg where
  /-- `SW`, the symbol width. -/
  sw : Nat
  /-- `SYM_BITS`, the width of a symbol's own representation. -/
  symBits : Nat
  /-- `ENC`, used by a PACKER. -/
  enc : EncMap
  /-- `DEC`, used by an UNPACKER. -/
  dec : DecMap
  /-- `PEND_CAP`; `none` is `unbounded`. -/
  pendCap : Option Nat
  /-- `SRC_CAP`; `none` is `unbounded`. -/
  srcCap : Option Nat
  deriving DecidableEq, Repr

/-- The identity alphabet of R12 at symbol width `sw`, capacities unbounded: the configuration
spec/95_test_vectors.md tests with. -/
def Cfg.identity (sw : Nat) : Cfg :=
  { sw := sw, symBits := 32, enc := .identity, dec := .identity, pendCap := none, srcCap := none }

end Sys2Proof
end

