-- ==== Sys2Proof/Syntax.lean ====
section
/-! DEFINITION. The commands, one constructor for each row of spec/opcode_table.json, with the
operands of the abstract command type of spec/30_encoding.md R86. (R86's sixth case, `illegal`, is
no operation: decoding answers it, Decode.lean.) -/

namespace Sys2Proof

/-- The two kinds of unit (spec/00_scope.md R2). -/
inductive UnitKind where
  | packer
  | unpacker
  deriving DecidableEq, Repr

/-- The five operations (spec/00_scope.md R3). -/
inductive Instr where
  /-- `push(value, width)`: append the `width` low bits of `value` (40_packer.md R100, R101). -/
  | push (value : Int) (width : Nat)
  /-- `flush()`: hand out the symbols and the padded partial symbol (40_packer.md R105). -/
  | flush
  /-- `load(input)`: replace the source by the given symbol words (41_unpacker.md R120). -/
  | load (input : List SymWord)
  /-- `pop(width)`: the next bits as an integer (41_unpacker.md R121, R122). -/
  | pop (width : Nat)
  /-- `offset(skip)`: put the cursor at an absolute bit position (41_unpacker.md R126). -/
  | offset (skip : Int)
  deriving DecidableEq, Repr

end Sys2Proof
end

