-- ==== Sys2Proof/Machine/State.lean ====
section
/-! DEFINITION. The state of the machine as plain data (spec/10_state.md), the reasons a step can
stop, and the state after reset. -/

namespace Sys2Proof.Machine

/-! ### Responses (spec/30_encoding.md R78, spec/60_exceptions.md R181) -/

/-- The codes of R181. A rejection is one of them and nothing more (R184). -/
inductive Status where
  /-- 0: the command completed. -/
  | ok
  /-- 1: "unsigned value required". -/
  | eUnsigned
  /-- 2: "bit width too small for value". -/
  | eWidthSmall
  /-- 3: "invalid symbol". -/
  | eSymbol
  /-- 4: negative seek. -/
  | eSeek
  /-- 5: `width` outside `[1, 32]`. -/
  | eWidthRange
  /-- 6: illegal command encoding. -/
  | eIllegal
  /-- 7: a finite capacity would be exceeded. -/
  | eCapacity
  /-- 8: names the failure of `ConfigOK`; never a response (R190). -/
  | eConfig
  deriving DecidableEq, Repr

/-- The one response to a command (R78). -/
structure Response where
  status : Status
  /-- 1 only for a `pop` that answers null. -/
  null : Bool
  /-- The integer of a `pop`; 0 in every other response. -/
  result : BitVec 32
  /-- The symbols of a `flush`, in order; empty in every other response. -/
  out : List SymWord
  deriving DecidableEq, Repr

/-! ### The two units (R20, R25) -/

/-- The registers and the queue of a PACKER (R20): exactly three pieces of state. -/
structure Packer where
  /-- `ACC` (R21): the bits placed in the current symbol, left-justified in `SW` bits. -/
  acc : Nat
  /-- `SLOT` (R22): the number of bits still free in the current symbol. -/
  slot : Nat
  /-- `PEND` (R23): the symbols finished since the last flush, oldest first. -/
  pend : List SymWord
  deriving DecidableEq, Repr

/-- The buffer and the registers of an UNPACKER (R25): exactly four pieces of state. -/
structure Unpacker where
  /-- `SRC` (R26): the loaded symbols. -/
  src : List SymWord
  /-- `IDX` (R27): the index of the symbol being read. -/
  idx : Nat
  /-- `RES` (R29): the unread bits of that symbol. -/
  res : Nat
  /-- `AVAIL` (R30): the unread bits of the whole source. -/
  avail : Nat
  deriving DecidableEq, Repr

/-- The registers of an instance of either kind. -/
inductive Regs where
  | packer (p : Packer)
  | unpacker (u : Unpacker)
  deriving DecidableEq, Repr

/-- One instance of either unit with its configuration and its two ports: one agent of the model
(spec/00_scope.md R2, R5; spec/30_encoding.md R70). -/
structure Agent where
  /-- The configuration, fixed for the life of the instance (R40): no operation writes it (log 3). -/
  cfg : Cfg
  /-- The registers of the unit. -/
  regs : Regs
  /-- The command port: the words the host is presenting, the next one first (log 1). -/
  cmdPort : List Word
  /-- The response port: the responses given so far, oldest first (log 2). -/
  respPort : List Response
  deriving DecidableEq, Repr

/-- One thing the host does to one instance (spec/70_reset_and_hazards.md R222, spec/10_state.md R44);
the number is the host's name for the instance, its place in `State.agents` (log 13). -/
inductive HostAct where
  /-- Let instance `k` take the next command at its port. -/
  | command (k : Nat)
  /-- Drive the reset input of instance `k` (R44; log 11). -/
  | reset (k : Nat)
  deriving DecidableEq, Repr

/-- The machine: any number of instances (spec/60_exceptions.md R196), and the rest of what the host
does, in its order (R226; log 1). -/
structure State where
  agents : List Agent
  host : List HostAct
  deriving DecidableEq, Repr

/-- Why the machine stops with a fault. Both are safe, and neither can happen in a state that meets
the invariant of Safety.lean (log 9). -/
inductive Fault where
  /-- Raised by `pop` where it would read `SRC` at or beyond `LEN`, which spec/20_memory.md R52 leaves
  undefined and R60 says no operation does. Safe. -/
  | srcOutOfRange
  /-- Raised by `pop` where a symbol of `SRC` decodes to invalid, which spec/10_state.md R26 excludes.
  Safe. -/
  | srcUndecodable
  deriving DecidableEq, Repr

/-- Why the machine has no meaning for what is asked. All are safe. -/
inductive Refusal where
  /-- Raised by an arm of `exec` whose instruction has no meaning yet. Safe. -/
  | notModelled (mnemonic : String)
  /-- Raised by a meaning where the host presents no command (the host's next act is no command, or
  names no instance): there is no unit to run it on. A step never asks a meaning this. Safe. -/
  | noCommand
  /-- Raised by a step whose host act names an instance that does not exist. Safe. -/
  | noSuchAgent
  /-- Raised by a step or a meaning on an instance whose configuration is not well-formed: such a unit
  never asserts `READY` (spec/00_scope.md R6, spec/60_exceptions.md R190; log 6). Safe. -/
  | notReady
  deriving DecidableEq, Repr

/-! ### Reset (spec/10_state.md R42 to R44, spec/70_reset_and_hazards.md R210) -/

/-- A PACKER after reset (R42): `ACC = 0`, `SLOT = SW`, `PEND = []`. -/
def Packer.reset (c : Cfg) : Packer :=
  { acc := 0, slot := c.sw, pend := [] }

/-- An UNPACKER after reset (R43): `SRC = []`, `IDX = 0`, `RES = SW`, `AVAIL = 0`. -/
def Unpacker.reset (c : Cfg) : Unpacker :=
  { src := [], idx := 0, res := c.sw, avail := 0 }

/-- The registers of a unit of the given kind after reset. -/
def Regs.reset (c : Cfg) : UnitKind → Regs
  | .packer => .packer (Packer.reset c)
  | .unpacker => .unpacker (Unpacker.reset c)

/-- Construction of an instance (R210): its configuration as chosen, its registers at reset, nothing
at its ports. -/
def Agent.construct (kind : UnitKind) (c : Cfg) : Agent :=
  { cfg := c, regs := Regs.reset c kind, cmdPort := [], respPort := [] }

/-- The machine just constructed with these instances, the host doing nothing yet. -/
def State.construct (units : List (UnitKind × Cfg)) : State :=
  { agents := units.map fun u => Agent.construct u.1 u.2, host := [] }

/-- The machine right after reset: one PACKER and one UNPACKER, both configured as the spec's own test
configuration, the identity alphabet at `SW = 6`. Every register is at its reset value; the
configuration, which R44 says is "chosen, not reset", is the model's choice. DESIGN CHOICE, unsafe
(log 4): statements are about every state, so about every configuration. -/
def State.reset : State :=
  State.construct [(.packer, Cfg.identity 6), (.unpacker, Cfg.identity 6)]

end Sys2Proof.Machine
end

