-- ==== Sys2Proof/Machine/Mapping.lean ====
section
/-! DEFINITION. What a configuration means: `ConfigOK` (spec/00_scope.md R6) and the two mapping
functions `ENC` and `DEC` as total functions of the types of R5 (R7; log 5). -/

namespace Sys2Proof.Machine

/-- `WMAX` (R5): the largest legal `width` of one push or pop. -/
def wMax : Nat := 32

/-- `ConfigOK(CFG)` (R6), with the other legal values of R5's table: `1 <= SW <= 32`,
`1 <= SYM_BITS <= 64`, `SRC_CAP <= 2^47 - 1` when finite. `ENC` and `DEC` are total functions of their
types in every configuration, by `encodeSymbol` and `decodeSymbol` below. -/
abbrev ConfigOK (c : Cfg) : Prop :=
  1 ≤ c.sw ∧ c.sw ≤ 32 ∧ 1 ≤ c.symBits ∧ c.symBits ≤ 64 ∧ ∀ n ∈ c.srcCap, n ≤ 2 ^ 47 - 1

/-- The function an `EncMap` names, before it is cut to the type `Sym`. -/
def rawEnc : EncMap → Nat → SymWord
  | .identity, v => BitVec.ofNat 64 v
  | .table syms, v => syms[v]?.getD 0
  | .free k, v => Config.freeEnc k v

/-- The function a `DecMap` names, before it is cut to the type `{0..2^SW-1} ∪ {invalid}`. -/
def rawDec : DecMap → SymWord → Option Nat
  | .identity, s => some s.toNat
  | .table codes, s => codes.lookup s
  | .free k, s => Config.freeDec k s

/-- `ENC(v)` as a symbol word, `zext_64` of a `Sym` of `SYM_BITS` bits (R5, spec/30_encoding.md R77). -/
def encodeSymbol (c : Cfg) (v : Nat) : SymWord :=
  BitVec.ofNat 64 ((rawEnc c.enc v).toNat % 2 ^ c.symBits)

/-- The word is a symbol word: no bit at or above `SYM_BITS` (spec/30_encoding.md R77). -/
abbrev IsSymbol (c : Cfg) (s : SymWord) : Prop := s.toNat < 2 ^ c.symBits

/-- `DEC` on a symbol word; `none` is `invalid`. A word with a bit at or above `SYM_BITS` is treated as
one on which `DEC` answers invalid (spec/30_encoding.md R77), and an answer outside `[0, 2^SW)` is
taken as invalid (spec/93_implementation_defined.md U6; log 5). -/
def decodeSymbol (c : Cfg) (s : SymWord) : Option Nat :=
  if IsSymbol c s then (rawDec c.dec s).filter fun v => decide (v < 2 ^ c.sw) else none

/-- `MappingInverse` (spec/42_laws.md R150) for the `ENC` of one configuration and the `DEC` of another:
the premise some laws need, which the hardware does not check. -/
def MappingInverse (encoder decoder : Cfg) : Prop :=
  ∀ v, v < 2 ^ encoder.sw → decodeSymbol decoder (encodeSymbol encoder v) = some v

end Sys2Proof.Machine
end

