-- ==== Sys2Proof/Machine/Flags.lean ====
section
/-! DEFINITION. Conditions and derived quantities. Neither unit stores a flag (spec/10_state.md R33);
the two conditions the operations test, and the derived quantities of spec/00_scope.md R11, are
functions of the registers. -/

namespace Sys2Proof.Machine

/-- "Partial symbol pending": `SLOT != SW` (R33), read by `flush`. -/
def Packer.partialPending (c : Cfg) (p : Packer) : Bool := p.slot != c.sw

/-- "Exhausted": `AVAIL <= 0`, that is `AVAIL = 0` (R33), read by `pop`. -/
def Unpacker.exhausted (u : Unpacker) : Bool := u.avail == 0

/-- `FILLED = SW - SLOT` (R11). -/
def Packer.filled (c : Cfg) (p : Packer) : Nat := c.sw - p.slot

/-- `LEN = len(SRC)` (R11). -/
def Unpacker.len (u : Unpacker) : Nat := u.src.length

/-- `POS = IDX*SW + (SW - RES)` (R11): the absolute bit position of the cursor. -/
def Unpacker.pos (c : Cfg) (u : Unpacker) : Nat := u.idx * c.sw + (c.sw - u.res)

/-- `TOTAL = LEN*SW` (R11): the bit length of the source. -/
def Unpacker.total (c : Cfg) (u : Unpacker) : Nat := u.len * c.sw

/-- `max(0, RES + (LEN - 1 - IDX) * SW)` on integers (R30): what `AVAIL` always is. -/
def availOf (c : Cfg) (len idx res : Nat) : Nat :=
  (max 0 ((res : Int) + ((len : Int) - 1 - (idx : Int)) * (c.sw : Int))).toNat

/-- The `STATUS` number of a code, 4 bits (spec/60_exceptions.md R181). 9 to 15 are never produced. -/
def Status.code : Status → BitVec 4
  | .ok => 0
  | .eUnsigned => 1
  | .eWidthSmall => 2
  | .eSymbol => 3
  | .eSeek => 4
  | .eWidthRange => 5
  | .eIllegal => 6
  | .eCapacity => 7
  | .eConfig => 8

end Sys2Proof.Machine
end

