-- ==== Sys2Proof/Machine/Operands.lean ====
section
/-! DEFINITION. The checks on operands, each in the order the spec makes them
(spec/60_exceptions.md R185); the first that fails is the code the command is rejected with. -/

namespace Sys2Proof.Machine

/-- `1 <= width <= 32` (40_packer.md R100 check 1, 41_unpacker.md R121 step 1). -/
abbrev WidthInRange (width : Nat) : Prop := 1 ≤ width ∧ width ≤ wMax

/-- `(SW - SLOT + width) div SW`: the number of symbols a push of that width emits (R100, R102). -/
def symbolsEmitted (c : Cfg) (p : Packer) (width : Nat) : Nat := (c.sw - p.slot + width) / c.sw

/-- The queue with `n` symbols fits a capacity, `none` being unbounded (00_scope.md R5). -/
def fits (cap : Option Nat) (n : Nat) : Bool :=
  match cap with
  | none => true
  | some m => decide (n ≤ m)

/-- The four checks of `push` (R100), in order. -/
def pushCheck (c : Cfg) (p : Packer) (value : Int) (width : Nat) : Option Status :=
  if ¬ WidthInRange width then some .eWidthRange
  else if value < 0 then some .eUnsigned
  else if 2 ^ width ≤ value then some .eWidthSmall
  else if fits c.pendCap (p.pend.length + symbolsEmitted c p width) then none
  else some .eCapacity

/-- The two checks of `load` (R120), in order. -/
def loadCheck (c : Cfg) (input : List SymWord) : Option Status :=
  if fits c.srcCap input.length then
    if input.all fun s => (decodeSymbol c s).isSome then none else some .eSymbol
  else some .eCapacity

/-- The check of `pop` (R121 step 1). -/
def popCheck (width : Nat) : Option Status :=
  if WidthInRange width then none else some .eWidthRange

/-- The check of `offset` (R126). -/
def offsetCheck (skip : Int) : Option Status :=
  if skip < 0 then some .eSeek else none

end Sys2Proof.Machine
end

