-- ==== Sys2Proof/Decode.lean ====
section
/-! DEFINITION. Command words: the fields, the opcode map, decoding (total, with a name for every
reason to reject), and the encoder written from the same table (spec/30_encoding.md R71 to R81, R86,
R87). -/

namespace Sys2Proof

/-! ### Fields of the command word (R71, R73, R74) -/

/-- `OP = CW[63:61]`. -/
def opField (cw : Word) : BitVec 3 := cw.extractLsb' 61 3

/-- `WIDTH = CW[60:55]`. -/
def widthField (cw : Word) : BitVec 6 := cw.extractLsb' 55 6

/-- `RSV = CW[54:48]`. -/
def rsvField (cw : Word) : BitVec 7 := cw.extractLsb' 48 7

/-- `OPND = CW[47:0]`. -/
def opndField (cw : Word) : BitVec 48 := cw.extractLsb' 0 48

/-- The integer operand, `sext_48(OPND)` (R73). -/
def intOperand (cw : Word) : Int := (opndField cw).toInt

/-- The `width` operand, `zext_6(WIDTH)` (R74). -/
def widthOperand (cw : Word) : Nat := (widthField cw).toNat

/-! ### The opcode map (R81) -/

/-- One row of the opcode map: a word selects it when `CW & mask = pattern`. -/
structure OpRow where
  mnemonic : String
  unit : UnitKind
  mask : Word
  pattern : Word
  deriving DecidableEq, Repr

/-- The five rows of R81. -/
def opRows : List OpRow :=
  [ ⟨"PUSH", .packer, 0xE07F000000000000, 0x0000000000000000⟩,
    ⟨"FLUSH", .packer, 0xFFFFFFFFFFFFFFFF, 0x2000000000000000⟩,
    ⟨"LOAD", .unpacker, 0xFFFF000000000000, 0x4000000000000000⟩,
    ⟨"POP", .unpacker, 0xE07FFFFFFFFFFFFF, 0x6000000000000000⟩,
    ⟨"OFFSET", .unpacker, 0xFFFF000000000000, 0x8000000000000000⟩ ]

/-- Whether a command word selects the row (R81). -/
def OpRow.selects (r : OpRow) (cw : Word) : Bool := cw &&& r.mask == r.pattern

/-! ### Decoding -/

/-- What a legal command word says before its symbol words are looked at: the operation and its
operands, for `load` the number of symbol words that follow (R76). -/
inductive Header where
  | push (value : Int) (width : Nat)
  | flush
  | load (len : Nat)
  | pop (width : Nat)
  | offset (skip : Int)
  deriving DecidableEq, Repr

/-- Why a command word is an illegal encoding, one name for each case of R79. -/
inductive IllegalReason where
  /-- (a) `OP` is 5, 6 or 7. -/
  | reservedOp
  /-- (b) `OP` names an operation of the other kind of unit (R87). -/
  | otherUnit
  /-- (c) `RSV` is not 0. -/
  | reservedField
  /-- (d) `WIDTH` is not 0 in `FLUSH`, `LOAD` or `OFFSET`. -/
  | widthNotZero
  /-- (e) `OPND` is not 0 in `FLUSH` or `POP`. -/
  | operandNotZero
  /-- (f) `LOAD` with a negative number of symbols. -/
  | negativeLength
  deriving DecidableEq, Repr

/-- Decode the fields `OP`, `WIDTH` and `OPND` of a command word whose `RSV` is 0 (R72, R73, R74, and R79
but for its case (b)). The order in which the reasons to reject are tried is the model's: R79 ranks none,
and the response says only `E_ILLEGAL` (log 12). -/
def decodeFields (op : BitVec 3) (width : BitVec 6) (opnd : BitVec 48) : Except IllegalReason Header :=
  match op.toNat with
  | 0 => .ok (.push opnd.toInt width.toNat)
  | 1 =>
    if width ≠ 0 then .error .widthNotZero
    else if opnd ≠ 0 then .error .operandNotZero
    else .ok .flush
  | 2 =>
    if width ≠ 0 then .error .widthNotZero
    else if opnd.toInt < 0 then .error .negativeLength
    else .ok (.load opnd.toInt.toNat)
  | 3 =>
    if opnd ≠ 0 then .error .operandNotZero
    else .ok (.pop width.toNat)
  | 4 =>
    if width ≠ 0 then .error .widthNotZero
    else .ok (.offset opnd.toInt)
  | _ => .error .reservedOp

/-- Decode one command word on its own (R71, R81). -/
def decodeHeader (cw : Word) : Except IllegalReason Header :=
  if rsvField cw ≠ 0 then .error .reservedField
  else decodeFields (opField cw) (widthField cw) (opndField cw)

/-- The unit that takes the operation (R87). -/
def Header.kind : Header → UnitKind
  | .push _ _ => .packer
  | .flush => .packer
  | .load _ => .unpacker
  | .pop _ => .unpacker
  | .offset _ => .unpacker

/-- The number of symbol words that follow the command word (R76). -/
def Header.symbolWords : Header → Nat
  | .load n => n
  | .push _ _ => 0
  | .flush => 0
  | .pop _ => 0
  | .offset _ => 0

/-- The command of a header and of the symbol words that follow it (R86). -/
def Header.toInstr (input : List SymWord) : Header → Instr
  | .push v w => .push v w
  | .flush => .flush
  | .load _ => .load input
  | .pop w => .pop w
  | .offset k => .offset k

/-- What stands at the head of a command port. -/
inductive Decoded where
  /-- No word is presented. -/
  | nothing
  /-- The first word is an illegal encoding (R79): only it belongs to the command. -/
  | illegal (why : IllegalReason)
  /-- A legal `LOAD` whose symbol words are not all presented yet (R76). -/
  | incomplete
  /-- A whole command, and the words after it. -/
  | instr (i : Instr) (rest : List Word)
  deriving DecidableEq, Repr

/-- Decode the command at the head of a sequence of port words, whatever the unit (R76, R86). -/
def decode : List Word → Decoded
  | [] => .nothing
  | cw :: ws =>
    match decodeHeader cw with
    | .error why => .illegal why
    | .ok h =>
      if h.symbolWords ≤ ws.length then
        .instr (h.toInstr (ws.take h.symbolWords)) (ws.drop h.symbolWords)
      else .incomplete

/-- Decode at the port of a unit of the given kind: a word that names the other kind's operation is
illegal there, with no symbol word looked at (R79 (b), R87). -/
def decodeAt (kind : UnitKind) : List Word → Decoded
  | [] => .nothing
  | cw :: ws =>
    match decodeHeader cw with
    | .error why => .illegal why
    | .ok h => if h.kind = kind then decode (cw :: ws) else .illegal .otherUnit

/-! ### Encoding -/

/-- The command word with the given fields, `RSV = 0` (R71). -/
def header (op : BitVec 3) (width : BitVec 6) (opnd : BitVec 48) : Word :=
  op ++ width ++ (0 : BitVec 7) ++ opnd

/-- The words of a command (R72, R76, R81). For a well-formed command they decode to it. -/
def encode : Instr → List Word
  | .push value width => [header 0 (BitVec.ofNat 6 width) (BitVec.ofInt 48 value)]
  | .flush => [header 1 0 0]
  | .load input => header 2 0 (BitVec.ofNat 48 input.length) :: input
  | .pop width => [header 3 (BitVec.ofNat 6 width) 0]
  | .offset skip => [header 4 0 (BitVec.ofInt 48 skip)]

/-- The unit that takes the command (R87). -/
def Instr.kind : Instr → UnitKind
  | .push _ _ => .packer
  | .flush => .packer
  | .load _ => .unpacker
  | .pop _ => .unpacker
  | .offset _ => .unpacker

/-- The number of port words of the command: the command word, and for `load` its symbol words
(R76). -/
def Instr.wordCount : Instr → Nat
  | .push _ _ => 1
  | .flush => 1
  | .load input => 1 + input.length
  | .pop _ => 1
  | .offset _ => 1

/-! ### A word as spec/opcode_table.json numbers it -/

/-- The most symbol words of zeros that `tableWords` lays down after a `LOAD` (log 8). -/
def tableSymbolLimit : Nat := 4096

/-- The port words of an instruction whose bits are `w`, bit 0 the least significant of the first
word, `nbits` of them given: the given words, then symbol words of zeros as the first word asks for
them, up to `tableSymbolLimit` (log 8). -/
def tableWords (nbits w : Nat) : List Word :=
  let given := (List.range (max 1 ((nbits + 63) / 64))).map fun j => BitVec.ofNat 64 (w % 2 ^ nbits >>> (64 * j))
  let wanted :=
    match decodeHeader (BitVec.ofNat 64 (w % 2 ^ nbits)) with
    | .ok h => min h.symbolWords tableSymbolLimit
    | .error _ => 0
  given ++ List.replicate (wanted + 1 - given.length) 0

/-- The instruction the decoder reads from those words; `none` where it refuses. -/
def decodeTableWord (nbits w : Nat) : Option Instr :=
  match decode (tableWords nbits w) with
  | .instr i _ => some i
  | .nothing => none
  | .illegal _ => none
  | .incomplete => none

end Sys2Proof
end

