-- ==== Sys2Proof/Machine/Stream.lean ====
section
/-! DEFINITION. The memory primitives over the two storages (spec/20_memory.md R52 to R57), and the bit
stream the laws of spec/42_laws.md speak of. -/

namespace Sys2Proof.Machine

/-- `SrcCode(i) = DEC(SRC[i])` (R52); `none` where R52 defines nothing. -/
def srcCode (c : Cfg) (src : List SymWord) (i : Nat) : Option Nat :=
  src[i]?.bind (decodeSymbol c)

/-- `SrcCode(i)` as `pop` reads it, with a name for each case R52 leaves undefined (log 9). -/
def readCode (c : Cfg) (src : List SymWord) (i : Nat) : Except Fault Nat :=
  match src[i]? with
  | none => .error .srcOutOfRange
  | some s =>
    match decodeSymbol c s with
    | none => .error .srcUndecodable
    | some v => .ok v

/-- `StreamBit(a) = SrcCode(a div SW)[SW - 1 - (a mod SW)]` (R53): 0 or 1. R52 and R53 define it for
`0 <= a < LEN*SW` and a symbol that decodes; elsewhere this total function answers 0, which no step reads.
DESIGN CHOICE (log 25). -/
def streamBit (c : Cfg) (src : List SymWord) (a : Nat) : Nat :=
  ((srcCode c src (a / c.sw)).getD 0 >>> (c.sw - 1 - a % c.sw)) % 2

/-- `MemRead(a, n)` (R54): the `n` stream bits from address `a`, most significant first. R54 defines it
for `a + n <= LEN*SW`; a bit beyond reads as 0. DESIGN CHOICE (log 25). -/
def memRead (c : Cfg) (src : List SymWord) (a : Nat) : Nat → Nat
  | 0 => 0
  | n + 1 => memRead c src a n * 2 + streamBit c src (a + n)

/-- The integer `SrcCode(0) ++ ... ++ SrcCode(LEN-1)` of R54, `LEN*SW` bits. A symbol that does not
decode, which R26 excludes, counts as 0. DESIGN CHOICE (log 25). -/
def streamNat (c : Cfg) (src : List SymWord) : Nat :=
  src.foldl (fun n s => n * 2 ^ c.sw + (decodeSymbol c s).getD 0) 0

/-- `PendAppend(s)` (R57): `PEND <- PEND ++ [s]`. -/
def Packer.pendAppend (p : Packer) (s : SymWord) : Packer := { p with pend := p.pend ++ [s] }

/-- `T` of spec/42_laws.md R157: the total width of a sequence of (value, width) pushes. -/
def totalWidth (pushes : List (Nat × Nat)) : Nat := (pushes.map (·.2)).sum

/-- `B` of R157: the values one after the other, each as exactly its width in bits, the first most
significant. -/
def concatValues (pushes : List (Nat × Nat)) : Nat :=
  pushes.foldl (fun n vw => n * 2 ^ vw.2 + vw.1) 0

/-- The symbols of R157: the `T` bits of `B`, zero-padded on the right to whole symbols,
`m = ceil(T / SW)` of them, mapped through `ENC`. -/
def packedSymbols (c : Cfg) (pushes : List (Nat × Nat)) : List SymWord :=
  let t := totalWidth pushes
  let m := (t + c.sw - 1) / c.sw
  let bp := concatValues pushes <<< (m * c.sw - t)
  (List.range m).map fun j => encodeSymbol c ((bp >>> ((m - 1 - j) * c.sw)) % 2 ^ c.sw)

end Sys2Proof.Machine
end

