-- ==== Sys2Proof/Machine/Ops.lean ====
section
/-! DEFINITION. The named operations every meaning is written over: which instance a command runs on,
completing a command, rejecting one (the nearest this hardware has to taking an exception,
spec/60_exceptions.md R186; there is no return, R187), and what the host does to a port. -/

namespace Sys2Proof.Machine

/-! ### Responses (spec/30_encoding.md R78) -/

/-- `STATUS = OK` alone: the response of `push`, `load`, `offset`. -/
def Response.okay : Response := { status := .ok, null := false, result := 0, out := [] }

/-- The response of a `pop` that returns an integer. -/
def Response.value (v : Nat) : Response := { Response.okay with result := BitVec.ofNat 32 v }

/-- The response of a `pop` that answers null. -/
def Response.nullAnswer : Response := { Response.okay with null := true }

/-- The response of a `flush`. -/
def Response.symbols (out : List SymWord) : Response := { Response.okay with out := out }

/-- The response of a rejected command (R186): the code, everything else zero. -/
def Response.error (e : Status) : Response := { Response.okay with status := e }

/-- The count that goes before the symbols of a response (R78). -/
def Response.outCount (r : Response) : Nat := r.out.length

/-! ### Instances -/

/-- The kind of unit an instance is. -/
def Agent.kind (a : Agent) : UnitKind :=
  match a.regs with
  | .packer _ => .packer
  | .unpacker _ => .unpacker

/-- The instance a host act names. -/
def HostAct.target : HostAct → Nat
  | .command k => k
  | .reset k => k

/-- The instance whose port the host is presenting a command on, with its place. -/
def State.active (s : State) : Option (Nat × Agent) :=
  match s.host with
  | .command k :: _ => s.agents[k]?.map fun a => (k, a)
  | .reset _ :: _ => none
  | [] => none

/-- Put an instance in its place. -/
def State.setAgent (s : State) (k : Nat) (a : Agent) : State :=
  { s with agents := s.agents.set k a }

/-- The host's next act is over. -/
def State.passTurn (s : State) : State := { s with host := s.host.tail }

/-- An instance after a command of `n` words: new registers, the words taken off its port, the one
response given (spec/30_encoding.md R70). -/
def Agent.respond (a : Agent) (n : Nat) (regs : Regs) (r : Response) : Agent :=
  { a with regs := regs, cmdPort := a.cmdPort.drop n, respPort := a.respPort ++ [r] }

/-- Instance `k`, which is `a`, completes a command of `n` words. -/
def State.complete (s : State) (k : Nat) (a : Agent) (n : Nat) (regs : Regs) (r : Response) : State :=
  (s.setAgent k (a.respond n regs r)).passTurn

/-- Instance `k`, which is `a`, rejects a command of `n` words: the response with the code, the
registers as they were (spec/60_exceptions.md R183, R186). -/
def State.reject (s : State) (k : Nat) (a : Agent) (n : Nat) (e : Status) : State :=
  s.complete k a n a.regs (Response.error e)

/-- A reset input (spec/10_state.md R44): the registers as after construction, the configuration kept.
The ports are the host's and stay (log 11). -/
def Agent.resetInput (a : Agent) : Agent := { a with regs := Regs.reset a.cfg a.kind }

/-! ### Running an operation on the active instance -/

/-- How one operation ends on the registers of its unit (spec/60_exceptions.md R180): done with a
response, rejected with a code, or stopped where the spec defines nothing (log 9). -/
inductive UnitResult (σ : Type) where
  | done (next : σ) (r : Response)
  | rejected (e : Status)
  | stopped (f : Fault)
  deriving DecidableEq, Repr

/-- End a command of `n` words on instance `k`, which is `a`, with the operation's result. -/
def State.finish {σ : Type} (s : State) (k : Nat) (a : Agent) (n : Nat) (toRegs : σ → Regs) :
    UnitResult σ → Host.Outcome State Fault Refusal
  | .done x r => .next (s.complete k a n (toRegs x) r)
  | .rejected e => .next (s.reject k a n e)
  | .stopped f => .fault f

/-- Run a PACKER's operation of `n` words on the active instance. An UNPACKER answers `E_ILLEGAL` and
takes the command word alone (spec/30_encoding.md R79, R87). -/
def State.onPacker (s : State) (n : Nat) (op : Cfg → Packer → UnitResult Packer) :
    Host.Outcome State Fault Refusal :=
  match s.active with
  | none => .refused .noCommand
  | some (k, a) =>
    if ConfigOK a.cfg then
      match a.regs with
      | .packer p => s.finish k a n .packer (op a.cfg p)
      | .unpacker _ => .next (s.reject k a 1 .eIllegal)
    else .refused .notReady

/-- Run an UNPACKER's operation of `n` words on the active instance. A PACKER answers `E_ILLEGAL` and
takes the command word alone (R79, R87). -/
def State.onUnpacker (s : State) (n : Nat) (op : Cfg → Unpacker → UnitResult Unpacker) :
    Host.Outcome State Fault Refusal :=
  match s.active with
  | none => .refused .noCommand
  | some (k, a) =>
    if ConfigOK a.cfg then
      match a.regs with
      | .packer _ => .next (s.reject k a 1 .eIllegal)
      | .unpacker u => s.finish k a n .unpacker (op a.cfg u)
    else .refused .notReady

/-! ### The host's side (spec/70_reset_and_hazards.md R222, R226; log 1) -/

/-- The host presents words at the port of instance `k`, behind what waits there. -/
def State.presentWords (s : State) (k : Nat) (ws : List Word) : State :=
  { s with agents := s.agents.modify k fun a => { a with cmdPort := a.cmdPort ++ ws } }

/-- The host presents commands to instance `k`, in order, after everything it has planned. -/
def State.present (s : State) (k : Nat) (cmds : List Instr) : State :=
  { s.presentWords k (cmds.flatMap encode) with
    host := s.host ++ cmds.map fun _ => HostAct.command k }

/-- The first instance of a kind; 0 where there is none. -/
def State.firstOf (s : State) (kind : UnitKind) : Nat :=
  (s.agents.findIdx? fun a => decide (a.kind = kind)).getD 0

/-- The words put first at the port of instance `k`, whose turn is next. -/
def State.presentNext (s : State) (k : Nat) (ws : List Word) : State :=
  { agents := s.agents.modify k fun a => { a with cmdPort := ws ++ a.cmdPort }
    host := .command k :: s.host }

/-- The kind of unit a command word is for; a PACKER's for a word that is legal at neither. -/
def kindOfWord (cw : Word) : UnitKind :=
  match decodeHeader cw with
  | .ok h => h.kind
  | .error _ => .packer

end Sys2Proof.Machine
end

