-- ==== Sys2Proof/Machine/Packer.lean ====
section
/-! DEFINITION. The PACKER's operations, `push` and `flush` (spec/40_packer.md). -/

namespace Sys2Proof.Machine

/-! ### `push` -/

/-- One turn of the loop of R101, entered with `rem >= SLOT`: the top `SLOT` of the `rem` bits left
complete the symbol, which is mapped and emitted. -/
def Packer.fillSymbol (c : Cfg) (value rem : Nat) (p : Packer) : Packer :=
  let chunk := (value >>> (rem - p.slot)) % 2 ^ p.slot
  let full := p.acc ||| chunk
  { p.pendAppend (encodeSymbol c full) with acc := 0, slot := c.sw }

/-- The end of R101, with `rem < SLOT` bits left: they go left-justified into the free slot. -/
def Packer.placeTail (value rem : Nat) (p : Packer) : Packer :=
  if 0 < rem then
    { p with acc := p.acc ||| ((value % 2 ^ rem) <<< (p.slot - rem)), slot := p.slot - rem }
  else p

/-- The loop of R101 and its end. The fuel bounds the turns of the loop; `pushFuel` is enough. -/
def Packer.appendBits (c : Cfg) (value : Nat) : Nat → Nat → Packer → Packer
  | 0, rem, p => p.placeTail value rem
  | fuel + 1, rem, p =>
    if p.slot ≤ rem then
      Packer.appendBits c value fuel (rem - p.slot) (p.fillSymbol c value rem)
    else p.placeTail value rem

/-- One turn for each bit, and one more (the loop makes at most `width` turns, R101). -/
def pushFuel (width : Nat) : Nat := width + 1

/-- `push(value, width)` on the registers of a PACKER (R100, R101). -/
def Packer.push (value : Int) (width : Nat) (c : Cfg) (p : Packer) : UnitResult Packer :=
  match pushCheck c p value width with
  | some e => .rejected e
  | none => .done (p.appendBits c value.toNat (pushFuel width) width) .okay

/-- `PUSH` (R100, R101). -/
def execPush (value : Int) (width : Nat) (s : State) : Host.Outcome State Fault Refusal :=
  s.onPacker 1 (Packer.push value width)

/-! ### `flush` -/

/-- What `flush` returns (R105): the queue, and the partial symbol if one is pending. -/
def Packer.flushed (c : Cfg) (p : Packer) : List SymWord :=
  if p.partialPending c then p.pend ++ [encodeSymbol c p.acc] else p.pend

/-- `flush()` on the registers of a PACKER (R105). -/
def Packer.flush (c : Cfg) (p : Packer) : UnitResult Packer :=
  .done (Packer.reset c) (.symbols (p.flushed c))

/-- `FLUSH` (R105). -/
def execFlush (s : State) : Host.Outcome State Fault Refusal :=
  s.onPacker 1 Packer.flush

end Sys2Proof.Machine
end

