-- ==== Sys2Proof/Machine/Unpacker.lean ====
section
/-! DEFINITION. The UNPACKER's operations, `load`, `pop` and `offset` (spec/41_unpacker.md). -/

namespace Sys2Proof.Machine

/-! ### `load` -/

/-- The state a `load` that is accepted leaves (R120 step 3). -/
def Unpacker.loaded (c : Cfg) (input : List SymWord) : Unpacker :=
  { src := input, idx := 0, res := c.sw, avail := input.length * c.sw }

/-- `load(input)` on the registers of an UNPACKER (R120): all four pieces or none. -/
def Unpacker.load (input : List SymWord) (c : Cfg) (_ : Unpacker) : UnitResult Unpacker :=
  match loadCheck c input with
  | some e => .rejected e
  | none => .done (Unpacker.loaded c input) .okay

/-- `LOAD` (R120): the command word and the symbol words are consumed whatever the outcome
(spec/30_encoding.md R76). -/
def execLoad (input : List SymWord) (s : State) : Host.Outcome State Fault Refusal :=
  s.onUnpacker (Instr.load input).wordCount (Unpacker.load input)

/-! ### `pop` -/

/-- The bits of R122's one turn: the top `take` of the `RES` unread bits of the symbol code `cur`. -/
def takeBits (cur res take : Nat) : Nat := (cur % 2 ^ res) >>> (res - take)

/-- "symbol fully consumed" (R122): the cursor goes to the next symbol, also after the last one
(spec/90_conflicts.md C2). -/
def Unpacker.advance (c : Cfg) (u : Unpacker) : Unpacker :=
  if u.res = 0 then { u with idx := u.idx + 1, res := c.sw } else u

/-- The loop of R122, with `need` bits owed and `result` collected. The fuel bounds its turns;
`popFuel` is enough. -/
def Unpacker.extract (c : Cfg) : Nat → Nat → Nat → Unpacker → Except Fault (Unpacker × Nat)
  | 0, _, result, u => .ok (u, result)
  | fuel + 1, need, result, u =>
    if need = 0 then .ok (u, result)
    else
      match readCode c u.src u.idx with
      | .error f => .error f
      | .ok cur =>
        let take := min need u.res
        Unpacker.extract c fuel (need - take) ((result <<< take) ||| takeBits cur u.res take)
          (Unpacker.advance c { u with res := u.res - take })

/-- One turn for each bit, and one more (the loop makes at most `ceil((w' - 1) / SW) + 1` turns,
R122). -/
def popFuel (need : Nat) : Nat := need + 1

/-- `pop(width)` on the registers of an UNPACKER (R121, R122). -/
def Unpacker.pop (width : Nat) (c : Cfg) (u : Unpacker) : UnitResult Unpacker :=
  match popCheck width with
  | some e => .rejected e
  | none =>
    if u.exhausted then .done u .nullAnswer
    else
      let w := min width u.avail
      match Unpacker.extract c (popFuel w) w 0 { u with avail := u.avail - w } with
      | .error f => .stopped f
      | .ok (u', result) => .done u' (.value result)

/-- `POP` (R121, R122). -/
def execPop (width : Nat) (s : State) : Host.Outcome State Fault Refusal :=
  s.onUnpacker 1 (Unpacker.pop width)

/-! ### `offset` -/

/-- The seek of R126 step 2, the one division of R128: quotient to `IDX`, `SW` minus the remainder to
`RES`, and `AVAIL` from them. `SRC` is not touched and the old cursor is not read. -/
def Unpacker.seek (c : Cfg) (skip : Nat) (u : Unpacker) : Unpacker :=
  { u with
    idx := skip / c.sw
    res := c.sw - skip % c.sw
    avail := availOf c u.len (skip / c.sw) (c.sw - skip % c.sw) }

/-- `offset(skip)` on the registers of an UNPACKER (R126). -/
def Unpacker.offset (skip : Int) (c : Cfg) (u : Unpacker) : UnitResult Unpacker :=
  match offsetCheck skip with
  | some e => .rejected e
  | none => .done (u.seek c skip.toNat) .okay

/-- `OFFSET` (R126). -/
def execOffset (skip : Int) (s : State) : Host.Outcome State Fault Refusal :=
  s.onUnpacker 1 (Unpacker.offset skip)

end Sys2Proof.Machine
end

