-- ==== Sys2Proof/Machine/Dispatch.lean ====
section
/-! DEFINITION. The meaning of each command, one arm per constructor. -/

namespace Sys2Proof.Machine

def exec (i : Instr) (s : State) : Host.Outcome State Fault Refusal :=
  match i with
  | .push value width => Sys2Proof.Machine.execPush value width s
  | .flush => Sys2Proof.Machine.execFlush s
  | .load input => Sys2Proof.Machine.execLoad input s
  | .pop width => Sys2Proof.Machine.execPop width s
  | .offset skip => Sys2Proof.Machine.execOffset skip s

end Sys2Proof.Machine
end

