-- ==== Sys2Proof/Machine/Fetch.lean ====
section
/-! DEFINITION. What a step finds before it runs anything: the host's next act, the instance it names,
and what stands at that instance's command port (spec/30_encoding.md R70, R76, R79, R86). -/

namespace Sys2Proof.Machine

/-- What the next step is about. -/
inductive Fetched where
  /-- The host does nothing more (R226): the machine stays as it is. -/
  | idle
  /-- The host names an instance that does not exist. -/
  | noSuchAgent
  /-- The instance has no well-formed configuration: never `READY` (spec/00_scope.md R6). -/
  | notReady
  /-- The reset input of instance `k`, which is `a` (spec/10_state.md R44). -/
  | resetInput (k : Nat) (a : Agent)
  /-- No whole command is presented: nothing happens (log 7). -/
  | waiting
  /-- An illegal encoding at the port of instance `k`, which is `a` (R79). -/
  | illegal (k : Nat) (a : Agent)
  /-- The command at the port. -/
  | instr (i : Instr)
  deriving DecidableEq, Repr

/-- What stands at the command port of instance `k`, which is `a`. -/
def fetchAt (k : Nat) (a : Agent) : Fetched :=
  match decodeAt a.kind a.cmdPort with
  | .nothing => .waiting
  | .incomplete => .waiting
  | .illegal _ => .illegal k a
  | .instr i _ => .instr i

/-- What the next step is about. -/
def State.fetch (s : State) : Fetched :=
  match s.host with
  | [] => .idle
  | act :: _ =>
    match s.agents[act.target]? with
    | none => .noSuchAgent
    | some a =>
      if ConfigOK a.cfg then
        match act with
        | .command k => fetchAt k a
        | .reset k => .resetInput k a
      else .notReady

end Sys2Proof.Machine
end

