-- ==== Sys2Proof/Machine/Step.lean ====
section
/-! DEFINITION. One step: one host act, so one whole command of one instance (spec/30_encoding.md R70,
spec/20_memory.md R61). -/

namespace Sys2Proof.Machine

/-- One step of the machine. A command runs as its meaning says, an illegal encoding is rejected with
`E_ILLEGAL` and only its command word is consumed (R79), a reset input constructs the unit again (R44),
and where no whole command is presented nothing happens (R188; log 7). -/
def step (s : State) : Host.Outcome State Fault Refusal :=
  match s.fetch with
  | .idle => .next s
  | .noSuchAgent => .refused .noSuchAgent
  | .notReady => .refused .notReady
  | .resetInput k a => .next (s.setAgent k a.resetInput).passTurn
  | .waiting => .next s.passTurn
  | .illegal k a => .next (s.reject k a 1 .eIllegal)
  | .instr i => exec i s

/-- `s` with the instruction whose bits are `w`, as the opcode table numbers them, presented as the very
next command, at the first instance of the unit that takes it (log 8). -/
def State.withFetchWord (s : State) (nbits w : Nat) : State :=
  let ws := tableWords nbits w
  s.presentNext (s.firstOf (kindOfWord (ws.headD 0))) ws

end Sys2Proof.Machine
end

