-- ==== Sys2Proof/WellFormed.lean ====
section
/-! DEFINITION. Which commands the port can carry: the operand ranges of spec/30_encoding.md R73,
R74, R76, R86. A command outside them has no bit pattern (spec/60_exceptions.md R191). -/

namespace Sys2Proof

/-- The range of a 48-bit two's-complement operand, `[-2^47, 2^47 - 1]` (R73). -/
abbrev InOpndRange (v : Int) : Prop := -(2 ^ 47 : Int) ≤ v ∧ v < 2 ^ 47

/-- The command has a command word (R86): `value` and `skip` fit `OPND`, `width` fits `WIDTH`, and the
number of symbols fits `OPND` as a non-negative integer. -/
def Instr.wellFormed : Instr → Bool
  | .push value width => decide (InOpndRange value) && decide (width < 64)
  | .flush => true
  | .load input => decide (input.length < 2 ^ 47)
  | .pop width => decide (width < 64)
  | .offset skip => decide (InOpndRange skip)

end Sys2Proof
end

