-- ==== Sys2Proof/Machine/Adapter.lean ====
section
/-! DEFINITION. The host-side adapter between the software call surface and the command port: the
default operands (spec/30_encoding.md R75, R85) and the operands the command word cannot carry, which
the adapter fails itself and sends nothing (spec/60_exceptions.md R191). It is the host's, no part of
`step`. -/

namespace Sys2Proof.Machine

/-- An operand of a software call: an integer, or something else (a fraction, no number at all; R191). -/
inductive CallOperand where
  | int (v : Int)
  | notAnInteger
  deriving DecidableEq, Repr

/-- A call of the software interface; `none` is an operand left out, and for `load` an input that is no
sequence (R191). -/
inductive Call where
  | push (value : CallOperand) (width : Option CallOperand)
  | flush
  | load (input : Option (List SymWord))
  | pop (width : Option CallOperand)
  | offset (skip : Option CallOperand)
  deriving DecidableEq, Repr

/-- What the adapter does with a call. -/
inductive Adapted where
  /-- It presents the command. -/
  | send (i : Instr)
  /-- It fails the call with the error of R191 and sends nothing. -/
  | failed (e : Status)
  /-- It fails the call with an error the spec does not name (R191: a `value` or a `width` that is no
  integer; log 19) and sends nothing. -/
  | failedUnnamed
  /-- The call cannot be presented and the spec says nothing of it (R191: `skip` above `2^47 - 1`;
  log 19). It sends nothing. -/
  | unsaid
  deriving DecidableEq, Repr

/-- `width`, "default 8 when omitted" (R75). -/
def defaultWidth : CallOperand := .int 8

/-- `skip`, "(default 0)" (R75). -/
def defaultSkip : CallOperand := .int 0

/-- `push` at the adapter. R191 ranks no causes: `width` is looked at before `value`, also where `value` is
no integer, and a `width` that is no integer first of all (DESIGN CHOICE, log 19). -/
def adaptPush (value : CallOperand) : CallOperand → Adapted
  | .notAnInteger => .failedUnnamed
  | .int width =>
    if width < 0 ∨ 63 < width then .failed .eWidthRange
    else
      match value with
      | .notAnInteger => .failedUnnamed
      | .int v =>
        if v < -(2 ^ 47) then .failed .eUnsigned
        else if 2 ^ 47 ≤ v then .failed .eWidthSmall
        else .send (.push v width.toNat)

/-- `pop` at the adapter. -/
def adaptPop : CallOperand → Adapted
  | .int width => if width < 0 ∨ 63 < width then .failed .eWidthRange else .send (.pop width.toNat)
  | .notAnInteger => .failedUnnamed

/-- `offset` at the adapter: "negative or non-integer skip" is a seek-domain error. -/
def adaptOffset : CallOperand → Adapted
  | .int skip =>
    if skip < -(2 ^ 47) then .failed .eSeek
    else if 2 ^ 47 ≤ skip then .unsaid
    else .send (.offset skip)
  | .notAnInteger => .failed .eSeek

/-- `load` at the adapter: an input that is no sequence is a symbol-domain error. -/
def adaptLoad : Option (List SymWord) → Adapted
  | some input => if input.length < 2 ^ 47 then .send (.load input) else .unsaid
  | none => .failed .eSymbol

/-- The adapter (R75, R191). -/
def adapt : Call → Adapted
  | .push value width => adaptPush value (width.getD defaultWidth)
  | .flush => .send .flush
  | .load input => adaptLoad input
  | .pop width => adaptPop (width.getD defaultWidth)
  | .offset skip => adaptOffset (skip.getD defaultSkip)

end Sys2Proof.Machine
end

