-- ==== Sys2Proof/Machine/Asm.lean ====
section
/-! DEFINITION. The assembler syntax and the pseudo-instructions of spec/30_encoding.md R84, R85: one
command a line, `#` starts a comment, integers decimal, `0x` or `0b` with an optional leading `-`, an
optional prefix naming the instance. It is the notation of listings, no part of `step` (log 18). -/

namespace Sys2Proof.Machine

/-- The instance a line names: `P:`, `U:`, or with a number `P1:`, `U2:` (R84). -/
structure AsmTarget where
  kind : UnitKind
  number : Option Nat
  deriving DecidableEq, Repr

/-- A line of a listing. -/
inductive AsmLine where
  /-- Blank, or only a comment. -/
  | blank
  /-- A command, for the instance named if one is. -/
  | command (target : Option AsmTarget) (call : Call)
  /-- Not of the form R84 gives. -/
  | malformed
  deriving DecidableEq, Repr

/-- Blanks of a line. -/
def isBlank (ch : Char) : Bool := ch == ' ' || ch == '\t' || ch == '\r'

/-- Without blanks at either end. -/
def trimBlanks (cs : List Char) : List Char :=
  ((cs.dropWhile isBlank).reverse.dropWhile isBlank).reverse

/-- The text before the first `sep` and, where there is one, the text after it. -/
def splitFirst (sep : Char) : List Char → List Char × Option (List Char)
  | [] => ([], none)
  | ch :: cs =>
    if ch == sep then ([], some cs)
    else
      let (a, b) := splitFirst sep cs
      (ch :: a, b)

/-- The pieces of a text between the commas. -/
def splitCommas : List Char → List (List Char)
  | [] => [[]]
  | ch :: cs =>
    if ch == ',' then [] :: splitCommas cs
    else
      match splitCommas cs with
      | [] => [[ch]]
      | piece :: rest => (ch :: piece) :: rest

/-- The value of a digit. -/
def digitValue (ch : Char) : Option Nat :=
  let n := ch.toNat
  if 48 ≤ n ∧ n ≤ 57 then some (n - 48)
  else if 97 ≤ n ∧ n ≤ 102 then some (n - 87)
  else if 65 ≤ n ∧ n ≤ 70 then some (n - 55)
  else none

/-- The digits of a number in a base, after those read so far. -/
def digitsValue (base : Nat) : List Char → Nat → Option Nat
  | [], acc => some acc
  | ch :: cs, acc =>
    match digitValue ch with
    | none => none
    | some d => if d < base then digitsValue base cs (acc * base + d) else none

/-- An unsigned integer: decimal, `0x` hexadecimal or `0b` binary (R84). -/
def parseNat : List Char → Option Nat
  | [] => none
  | '0' :: 'x' :: d :: ds => digitsValue 16 (d :: ds) 0
  | '0' :: 'b' :: d :: ds => digitsValue 2 (d :: ds) 0
  | d :: ds => digitsValue 10 (d :: ds) 0

/-- An integer with an optional leading `-` (R84). -/
def parseInt (cs : List Char) : Option Int :=
  match trimBlanks cs with
  | '-' :: ds => (parseNat ds).map fun n => -(n : Int)
  | ds => (parseNat ds).map fun n => (n : Int)

/-- A symbol, "an integer: the Sym bit pattern" (R84): what a symbol word holds. -/
def parseSymbol (cs : List Char) : Option SymWord :=
  (parseNat (trimBlanks cs)).bind fun n => if n < 2 ^ 64 then some (BitVec.ofNat 64 n) else none

/-- Every piece parsed, or nothing. -/
def parseSymbols : List (List Char) → Option (List SymWord)
  | [] => some []
  | piece :: rest =>
    match parseSymbol piece, parseSymbols rest with
    | some s, some ss => some (s :: ss)
    | none, _ => none
    | some _, none => none

/-- `[<sym>, <sym>, ...]`; `[]` is the empty sequence (R84). -/
def parseSymbolList (cs : List Char) : Option (List SymWord) :=
  match trimBlanks cs with
  | '[' :: rest =>
    match rest.reverse with
    | ']' :: inner =>
      let text := trimBlanks inner.reverse
      if text.isEmpty then some [] else parseSymbols (splitCommas text)
    | _ => none
  | _ => none

/-- An operand that may be left out (R85). -/
def parseOptional (cs : List Char) : Option (Option CallOperand) :=
  if (trimBlanks cs).isEmpty then some none else (parseInt cs).map fun x => some (.int x)

/-- A command without its prefix: the mnemonic, then the operands in the order of the call surface,
an omitted one taking its default (R84, R85). -/
def parseCall (cs : List Char) : Option Call :=
  let word := cs.takeWhile fun ch => ch.isAlpha
  let rest := cs.dropWhile fun ch => ch.isAlpha
  if ¬ (rest.take 1).all isBlank then none
  else if word = ['p', 'u', 's', 'h'] then
    match splitCommas rest with
    | [v] => (parseInt v).map fun x => .push (.int x) none
    | [v, w] => (parseInt v).bind fun x => (parseInt w).map fun y => .push (.int x) (some (.int y))
    | _ => none
  else if word = ['f', 'l', 'u', 's', 'h'] then
    if (trimBlanks rest).isEmpty then some .flush else none
  else if word = ['l', 'o', 'a', 'd'] then (parseSymbolList rest).map fun input => .load (some input)
  else if word = ['p', 'o', 'p'] then (parseOptional rest).map .pop
  else if word = ['o', 'f', 'f', 's', 'e', 't'] then (parseOptional rest).map .offset
  else none

/-- A prefix without its colon: `P`, `U`, `P1`, `U2` ... (R84). -/
def parseTarget (cs : List Char) : Option AsmTarget :=
  match trimBlanks cs with
  | 'P' :: ds => if ds.isEmpty then some ⟨.packer, none⟩ else (digitsValue 10 ds 0).map fun n => ⟨.packer, some n⟩
  | 'U' :: ds => if ds.isEmpty then some ⟨.unpacker, none⟩ else (digitsValue 10 ds 0).map fun n => ⟨.unpacker, some n⟩
  | _ => none

/-- One line of a listing (R84). -/
def parseLine (line : List Char) : AsmLine :=
  let text := trimBlanks (splitFirst '#' line).1
  if text.isEmpty then .blank
  else
    match splitFirst ':' text with
    | (body, none) =>
      match parseCall (trimBlanks body) with
      | some call => .command none call
      | none => .malformed
    | (front, some body) =>
      match parseTarget front, parseCall (trimBlanks body) with
      | some t, some call => .command (some t) call
      | none, _ => .malformed
      | some _, none => .malformed

/-- The command of a line, as the adapter presents it. -/
def assembleLine (line : List Char) : Option Instr :=
  match parseLine line with
  | .command _ call =>
    match adapt call with
    | .send i => some i
    | .failed _ => none
    | .failedUnnamed => none
    | .unsaid => none
  | .blank => none
  | .malformed => none

/-- The places of the instances of a kind, in order. -/
def State.placesOf (s : State) (kind : UnitKind) : List Nat :=
  (List.range s.agents.length).filter fun k => (s.agents[k]?.map Agent.kind) = some kind

/-- The instance a prefix names: the first of its kind, or with a number `n` the `n`-th, counted from 1
(log 18). -/
def State.targetPlace (s : State) (t : AsmTarget) : Option Nat :=
  match t.number with
  | none => (s.placesOf t.kind)[0]?
  | some 0 => none
  | some (n + 1) => (s.placesOf t.kind)[n]?

end Sys2Proof.Machine
end

