-- ==== Sys2Proof/Machine/Fsm.lean ====
section
/-! DEFINITION. The state machines a realisation may run `push` and `pop` as (spec/40_packer.md R104,
spec/41_unpacker.md R124). They are informative in the spec and no part of `step`: only their `idle` is
observable, and the statements say that they end where the atomic operation does. The seek engine of
R128 takes no loop: it is `Unpacker.seek` itself. -/

namespace Sys2Proof.Machine

/-! ### The symbol-emit FSM (R104) -/

/-- The states of R104; `idle` holds the response just given. -/
inductive EmitPhase where
  | idle (r : Response)
  | check
  | fill (rem : Nat)
  | tail (rem : Nat)
  deriving DecidableEq, Repr

/-- A PACKER in the middle of a `push`. -/
structure EmitFsm where
  regs : Packer
  phase : EmitPhase
  deriving DecidableEq, Repr

/-- One tick of the symbol-emit FSM running `push(value, width)` (R104). -/
def EmitFsm.tick (c : Cfg) (value : Int) (width : Nat) (m : EmitFsm) : EmitFsm :=
  match m.phase with
  | .idle _ => m
  | .check =>
    match pushCheck c m.regs value width with
    | some e => { m with phase := .idle (.error e) }
    | none => { m with phase := .fill width }
  | .fill rem =>
    if m.regs.slot ≤ rem then
      { regs := m.regs.fillSymbol c value.toNat rem, phase := .fill (rem - m.regs.slot) }
    else { m with phase := .tail rem }
  | .tail rem => { regs := m.regs.placeTail value.toNat rem, phase := .idle .okay }

/-- A `push` just accepted at the port. -/
def EmitFsm.start (p : Packer) : EmitFsm := { regs := p, phase := .check }

/-- `n` ticks of the symbol-emit FSM. -/
def EmitFsm.run (c : Cfg) (value : Int) (width : Nat) : Nat → EmitFsm → EmitFsm
  | 0, m => m
  | n + 1, m => EmitFsm.run c value width n (m.tick c value width)

/-! ### The multi-symbol extract FSM (R124) -/

/-- The states of R124; `idle` holds the response just given, `halted` the model's fault where R52
defines no read (log 9). -/
inductive ExtractPhase where
  | idle (r : Response)
  | check
  | take (need result : Nat)
  | next (need result : Nat)
  | halted (f : Fault)
  deriving DecidableEq, Repr

/-- An UNPACKER in the middle of a `pop`. -/
structure ExtractFsm where
  regs : Unpacker
  phase : ExtractPhase
  deriving DecidableEq, Repr

/-- One tick of the extract FSM running `pop(width)` (R124). -/
def ExtractFsm.tick (c : Cfg) (width : Nat) (m : ExtractFsm) : ExtractFsm :=
  match m.phase with
  | .idle _ => m
  | .halted _ => m
  | .check =>
    match popCheck width with
    | some e => { m with phase := .idle (.error e) }
    | none =>
      if m.regs.exhausted then { m with phase := .idle .nullAnswer }
      else
        let w := min width m.regs.avail
        { regs := { m.regs with avail := m.regs.avail - w }, phase := .take w 0 }
  | .take need result =>
    match readCode c m.regs.src m.regs.idx with
    | .error f => { m with phase := .halted f }
    | .ok cur =>
      let n := min need m.regs.res
      { regs := { m.regs with res := m.regs.res - n }
        phase := .next (need - n) ((result <<< n) ||| takeBits cur m.regs.res n) }
  | .next need result =>
    { regs := m.regs.advance c
      phase := if need = 0 then .idle (.value result) else .take need result }

/-- A `pop` just accepted at the port. -/
def ExtractFsm.start (u : Unpacker) : ExtractFsm := { regs := u, phase := .check }

/-- `n` ticks of the extract FSM. -/
def ExtractFsm.run (c : Cfg) (width : Nat) : Nat → ExtractFsm → ExtractFsm
  | 0, m => m
  | n + 1, m => ExtractFsm.run c width n (m.tick c width)

end Sys2Proof.Machine
end

