-- ==== Sys2Proof/Machine/Session.lean ====
section
/-! DEFINITION. A host that issues one command after another to one instance and reads each response
(spec/70_reset_and_hazards.md R222, R226): the terms the laws of spec/42_laws.md are stated in. -/

namespace Sys2Proof.Machine

/-- The host issues the commands to instance `k`, one at a time, each presented when the unit is ready
and run by one step, before anything else it has planned. -/
def State.perform : State → Nat → List Instr → Host.Outcome State Fault Refusal
  | s, _, [] => .next s
  | s, k, i :: is =>
    match step (s.presentNext k (encode i)) with
    | .next t => t.perform k is
    | .fault f => .fault f
    | .refused r => .refused r

/-- `s` after instance `k`, which was `a`, has given these responses and been left with these
registers; everything else as it was. -/
def State.answered (s : State) (k : Nat) (a : Agent) (regs : Regs) (rs : List Response) : State :=
  s.setAgent k { a with regs := regs, respPort := a.respPort ++ rs }

end Sys2Proof.Machine
end

