-- ==== Sys2Proof/Safety.lean ====
section
/-! DEFINITION. What a safe machine is: the invariants of spec/10_state.md R24 and R31, and the same for
the ports, the instances and the whole machine. -/

namespace Sys2Proof.Machine

/-- The PACKER invariant (R24, with spec/90_conflicts.md C1): `1 <= SLOT <= SW`, `0 <= ACC < 2^SW`, the
free low bits of `ACC` zero, `len(PEND) <= PEND_CAP`; and every symbol of `PEND` is of type `Sym` (R23). -/
abbrev Packer.Inv (c : Cfg) (p : Packer) : Prop :=
  1 ≤ p.slot ∧ p.slot ≤ c.sw ∧ p.acc < 2 ^ c.sw ∧ p.acc % 2 ^ p.slot = 0 ∧
    fits c.pendCap p.pend.length = true ∧ (p.pend.all fun x => decide (IsSymbol c x)) = true

/-- The UNPACKER invariant (R31): `1 <= RES <= SW`, `AVAIL` is what R30 says, `AVAIL <= LEN*SW`,
`AVAIL > 0` implies `IDX < LEN`, every symbol of `SRC` decodes, `LEN <= SRC_CAP`; and `LEN` and `IDX`
fit 47 bits (R27). -/
abbrev Unpacker.Inv (c : Cfg) (u : Unpacker) : Prop :=
  1 ≤ u.res ∧ u.res ≤ c.sw ∧ u.avail = availOf c u.len u.idx u.res ∧ u.avail ≤ u.total c ∧
    (0 < u.avail → u.idx < u.len) ∧ (u.src.all fun x => (decodeSymbol c x).isSome) = true ∧
    fits c.srcCap u.len = true ∧ u.len < 2 ^ 47 ∧ u.idx < 2 ^ 47

/-- The invariant of the registers of either kind. -/
def Regs.inv (c : Cfg) : Regs → Bool
  | .packer p => decide (p.Inv c)
  | .unpacker u => decide (u.Inv c)

/-- The form of a response (spec/30_encoding.md R78): `NULL` and `RESULT` only with `STATUS = OK`,
`RESULT = 0` with `NULL`, symbols only with `STATUS = OK` and all of type `Sym`, and `E_CONFIG` never
(spec/60_exceptions.md R181, R190). -/
abbrev Response.Inv (c : Cfg) (r : Response) : Prop :=
  r.status ≠ .eConfig ∧ (r.null = true → r.status = .ok ∧ r.result = 0 ∧ r.out = []) ∧
    (r.status ≠ .ok → r.result = 0 ∧ r.out = []) ∧ (r.out ≠ [] → r.result = 0) ∧
    (r.out.all fun x => decide (IsSymbol c x)) = true

/-- The invariant of one instance: a well-formed configuration, registers that meet their unit's
invariant, responses of the right form. -/
abbrev Agent.Inv (a : Agent) : Prop :=
  ConfigOK a.cfg ∧ a.regs.inv a.cfg = true ∧ ∀ r ∈ a.respPort, r.Inv a.cfg

/-- The invariant of the machine: every instance meets its own, and the host names only instances that
exist. -/
abbrev State.Inv (s : State) : Prop :=
  (∀ a ∈ s.agents, a.Inv) ∧ ∀ h ∈ s.host, h.target < s.agents.length

/-- The storage of one instance holds only what its type allows: `PEND` symbols of type `Sym`, `SRC`
symbols of the alphabet, both within capacity. -/
def Agent.storageWf (a : Agent) : Bool :=
  match a.regs with
  | .packer p => (p.pend.all fun x => decide (IsSymbol a.cfg x)) && fits a.cfg.pendCap p.pend.length
  | .unpacker u => (u.src.all fun x => (decodeSymbol a.cfg x).isSome) && fits a.cfg.srcCap u.src.length

/-- The machine's whole storage is in its canonical form. It is two kinds of symbol list
(spec/20_memory.md R50), not a table of byte cells, so equal storages are equal data as they stand
(log 17). -/
def Memory.wf (s : State) : Bool := s.agents.all Agent.storageWf

end Sys2Proof.Machine
end

