-- ==== Sys2Proof/Certificates/Slice0/Obligations.lean ====
section
/-! DEFINITION. The statements for the provers, from the numbered rules of spec/. Throughout, `s` is any
state, `k` the place of the instance the host is presenting a command on and `a` that instance
(`s.active = some (k, a)`), whose configuration is well-formed (`ConfigOK`, R6: the spec defines nothing
for another). `State.complete` and `State.reject` are what a completed and a rejected command leave; what
they change and what not is stated by the frames. -/

open Sys2Proof Sys2Proof.Machine

/-! ### Encoding (spec/30_encoding.md) -/

/-- R76, R86: a command the port can carry, encoded and followed by any words, decodes to itself with
every operand and symbol word, and leaves the words after it. -/
def Obligations.DecodeOfEncode : Prop :=
  ∀ (i : Instr) (rest : List Word), i.wellFormed = true → decode (encode i ++ rest) = .instr i rest

/-- R81, R86: what decodes to a command is that command's encoding, so each command has one encoding,
and its operands are in their ranges (R73, R74, R76). -/
def Obligations.EncodeOfDecode : Prop :=
  ∀ (ws : List Word) (i : Instr) (rest : List Word),
    decode ws = .instr i rest → i.wellFormed = true ∧ ws = encode i ++ rest

/-- R81: "The rows are disjoint." No word selects two rows of the opcode map. -/
def Obligations.OpcodeRowsDisjoint : Prop :=
  ∀ (cw : Word) (r₁ r₂ : OpRow), r₁ ∈ opRows → r₂ ∈ opRows →
    r₁.selects cw = true → r₂.selects cw = true → r₁ = r₂

/-- R81 with R79 (f): a word is a legal command word exactly when it selects a row of the opcode map,
and if that row is `LOAD` its symbol count is not negative; the row is that of the operation decoded. -/
def Obligations.LegalWordsAreTheRows : Prop :=
  ∀ (cw : Word),
    ((∃ h, decodeHeader cw = .ok h) ↔
      ∃ r ∈ opRows, r.selects cw = true ∧ (r.mnemonic = "LOAD" → 0 ≤ intOperand cw)) ∧
    (∀ h, decodeHeader cw = .ok h →
      ∃ r ∈ opRows, r.selects cw = true ∧ r.unit = h.kind ∧
        r.mnemonic =
          match h with
          | .push _ _ => "PUSH"
          | .flush => "FLUSH"
          | .load _ => "LOAD"
          | .pop _ => "POP"
          | .offset _ => "OFFSET")

/-- R79: at a port whose next word is an illegal encoding, by any of the cases (a) to (f), the step gives
the response `E_ILLEGAL`, consumes that word and no symbol word, and changes no register and nothing else
of any instance. At a port whose next word is none of them, the step does not reject it as illegal:
a whole command runs; that one not wholly presented waits, the step only ending the host's act, is no rule
of R79 but the model's choice (log 7). -/
def Obligations.IllegalEncodingsRejected : Prop :=
  ∀ (s : State) (k : Nat) (a : Agent) (cw : Word) (ws : List Word),
    s.active = some (k, a) → ConfigOK a.cfg → a.cmdPort = cw :: ws →
    let op := cw.toNat / 2 ^ 61
    let width := cw.toNat / 2 ^ 55 % 2 ^ 6
    let rsv := cw.toNat / 2 ^ 48 % 2 ^ 7
    let opnd := cw.toNat % 2 ^ 48
    let illegal :=
      5 ≤ op ∨
      (a.kind = .packer ∧ 2 ≤ op) ∨ (a.kind = .unpacker ∧ op < 2) ∨
      rsv ≠ 0 ∨
      ((op = 1 ∨ op = 2 ∨ op = 4) ∧ width ≠ 0) ∨
      ((op = 1 ∨ op = 3) ∧ opnd ≠ 0) ∨
      (op = 2 ∧ 2 ^ 47 ≤ opnd)
    (illegal →
      step s = .next
        { agents := s.agents.set k
            { a with
              cmdPort := ws
              respPort := a.respPort ++ [{ status := .eIllegal, null := false, result := 0, out := [] }] }
          host := s.host.tail }) ∧
    (¬ illegal →
      (∃ i rest, decode a.cmdPort = .instr i rest ∧ i.kind = a.kind ∧ step s = exec i s) ∨
      (decode a.cmdPort = .incomplete ∧ step s = .next s.passTurn))

/-- Words written out from the encodings of spec/95_test_vectors.md decode to the commands they stand
for (R71 to R77). -/
def Obligations.SpecWordsDecode : Prop :=
  decode [0x040000000000004D] = .instr (.push 77 8) [] ∧
  decode [0x0400FFFFFFFFFFFF] = .instr (.push (-1) 8) [] ∧
  decode [0x1080000000000000] = .instr (.push 0 33) [] ∧
  decode [0x2000000000000000] = .instr .flush [] ∧
  decode [0x4000000000000003, 0x01, 0x40, 0x02, 0x6400000000000000] =
    .instr (.load [0x01, 0x40, 0x02]) [0x6400000000000000] ∧
  decode [0x4000FFFFFFFFFFFF] = .illegal .negativeLength ∧
  decode [0x7000000000000000] = .instr (.pop 32) [] ∧
  decode [0x8000FFFFFFFFFFFF] = .instr (.offset (-1)) [] ∧
  decode [0xA000000000000000] = .illegal .reservedOp

/-! ### The step -/

/-- When the words at the active port decode to a command, the step is `exec` of it on the same state;
`exec` itself takes the command's words off the port, and the words after them are those decoding left. -/
def Obligations.StepRunsDecodedCommand : Prop :=
  ∀ (s : State) (k : Nat) (a : Agent) (i : Instr) (rest : List Word),
    s.active = some (k, a) → ConfigOK a.cfg → decode a.cmdPort = .instr i rest →
    step s = exec i s ∧ a.cmdPort.drop i.wordCount = rest

/-- R188, and the model's choice of log 7: where the host does nothing more, and where it lets an
instance take a command that is not wholly presented, no instance changes. -/
def Obligations.NothingPresentedNothingHappens : Prop :=
  ∀ (s : State),
    (s.host = [] → step s = .next s) ∧
    (∀ k a, s.active = some (k, a) → ConfigOK a.cfg →
      (a.cmdPort = [] ∨ (decode a.cmdPort = .incomplete ∧ a.kind = .unpacker)) →
      step s = .next s.passTurn)

/-- R44: a reset input has exactly the effect of construction on the registers, the configuration kept;
the other instances are untouched (and the ports, by log 11). -/
def Obligations.ResetInputReconstructs : Prop :=
  ∀ (s : State) (k : Nat) (a : Agent) (rest : List HostAct),
    s.host = .reset k :: rest → s.agents[k]? = some a → ConfigOK a.cfg →
    step s = .next
      { agents := s.agents.set k { a with regs := (Agent.construct a.kind a.cfg).regs }
        host := rest }

/-- R78, R180: every command that ends gives exactly one response, takes its words off its port, and
leaves the configuration of its instance (R40), every other instance (R196) and the rest of the host's
script as they were. -/
def Obligations.OneResponsePerCommand : Prop :=
  ∀ (i : Instr) (s t : State), exec i s = .next t →
    ∃ k a a' r, s.active = some (k, a) ∧ t.agents[k]? = some a' ∧
      a'.respPort = a.respPort ++ [r] ∧ a'.cfg = a.cfg ∧
      a'.cmdPort = a.cmdPort.drop (if i.kind = a.kind then i.wordCount else 1) ∧
      (∀ j, j ≠ k → t.agents[j]? = s.agents[j]?) ∧
      t.agents.length = s.agents.length ∧ t.host = s.host.tail

/-! ### `push` (spec/40_packer.md) -/

/-- R100, R185: each failed check of `push` gives its code, the first in the order of R100, and R183:
nothing else changes. -/
def Obligations.PushRejections : Prop :=
  ∀ (s : State) (k : Nat) (a : Agent) (p : Packer) (value : Int) (width : Nat),
    s.active = some (k, a) → ConfigOK a.cfg → a.regs = .packer p →
    (¬ (1 ≤ width ∧ width ≤ 32) →
      exec (.push value width) s = .next (s.reject k a 1 .eWidthRange)) ∧
    (1 ≤ width → width ≤ 32 → value < 0 →
      exec (.push value width) s = .next (s.reject k a 1 .eUnsigned)) ∧
    (1 ≤ width → width ≤ 32 → (2 : Int) ^ width ≤ value →
      exec (.push value width) s = .next (s.reject k a 1 .eWidthSmall)) ∧
    (1 ≤ width → width ≤ 32 → 0 ≤ value → value < 2 ^ width →
      ∀ cap, a.cfg.pendCap = some cap →
        cap < p.pend.length + (a.cfg.sw - p.slot + width) / a.cfg.sw →
        exec (.push value width) s = .next (s.reject k a 1 .eCapacity))

/-- R102: an accepted `push` runs to completion with `STATUS = OK` and the state of the closed form:
with `f = SW - SLOT`, `A = ACC >> SLOT`, `t = f + width`, `N = A * 2^width + value`, `k = t div SW`,
`r = t mod SW`, it appends the `k` symbols and leaves `ACC = (N mod 2^r) << (SW - r)`, `SLOT = SW - r`.
The meaning is the loop of R101, so this is also the equality of the two that R102 asks for. -/
def Obligations.PushAppendsClosedForm : Prop :=
  ∀ (s : State) (k : Nat) (a : Agent) (p : Packer) (value : Int) (width : Nat),
    s.active = some (k, a) → ConfigOK a.cfg → a.regs = .packer p → p.Inv a.cfg →
    1 ≤ width → width ≤ 32 → 0 ≤ value → value < 2 ^ width →
    (∀ cap, a.cfg.pendCap = some cap →
      p.pend.length + (a.cfg.sw - p.slot + width) / a.cfg.sw ≤ cap) →
    let sw := a.cfg.sw
    let t := (sw - p.slot) + width
    let n := (p.acc >>> p.slot) * 2 ^ width + value.toNat
    exec (.push value width) s = .next (s.complete k a 1
      (.packer
        { acc := (n % 2 ^ (t % sw)) <<< (sw - t % sw)
          slot := sw - t % sw
          pend := p.pend ++ (List.range (t / sw)).map fun j =>
            encodeSymbol a.cfg ((n >>> (t - (j + 1) * sw)) % 2 ^ sw) })
      { status := .ok, null := false, result := 0, out := [] })

/-- R38, R101, R183: what a `push` leaves unchanged. Only `ACC`, `SLOT` and the tail of `PEND` of the
active PACKER may change; every symbol that was in `PEND` stays where it was; an UNPACKER it is sent to
changes no register. -/
def Obligations.PushFrame : Prop :=
  ∀ (s t : State) (k : Nat) (a : Agent) (value : Int) (width : Nat),
    exec (.push value width) s = .next t → s.active = some (k, a) →
    (∀ j, j ≠ k → t.agents[j]? = s.agents[j]?) ∧ t.host = s.host.tail ∧
    ∃ a', t.agents[k]? = some a' ∧ a'.cfg = a.cfg ∧ a'.cmdPort = a.cmdPort.drop 1 ∧
      (∃ r, a'.respPort = a.respPort ++ [r]) ∧
      (∀ u, a.regs = .unpacker u → a'.regs = .unpacker u) ∧
      (∀ p, a.regs = .packer p → ∃ p', a'.regs = .packer p' ∧
        ∀ j, j < p.pend.length → p'.pend[j]? = p.pend[j]?)

/-! ### `flush` (spec/40_packer.md) -/

/-- R105: `flush` always completes with `STATUS = OK`, returns every symbol of `PEND` and, if `SLOT` is
not `SW`, one more obtained by mapping `ACC`, and resets `PEND`, `ACC` and `SLOT`. -/
def Obligations.FlushReturnsAndResets : Prop :=
  ∀ (s : State) (k : Nat) (a : Agent) (p : Packer),
    s.active = some (k, a) → ConfigOK a.cfg → a.regs = .packer p →
    exec .flush s = .next (s.complete k a 1
      (.packer { acc := 0, slot := a.cfg.sw, pend := [] })
      { status := .ok, null := false, result := 0
        out := p.pend ++ if p.slot ≠ a.cfg.sw then [encodeSymbol a.cfg p.acc] else [] })

/-- R38, R105: what a `flush` leaves unchanged: every other instance, the configuration, and the
registers of an UNPACKER it is sent to. -/
def Obligations.FlushFrame : Prop :=
  ∀ (s t : State) (k : Nat) (a : Agent),
    exec .flush s = .next t → s.active = some (k, a) →
    (∀ j, j ≠ k → t.agents[j]? = s.agents[j]?) ∧ t.host = s.host.tail ∧
    ∃ a', t.agents[k]? = some a' ∧ a'.cfg = a.cfg ∧ a'.cmdPort = a.cmdPort.drop 1 ∧
      (∃ r, a'.respPort = a.respPort ++ [r]) ∧
      (∀ u, a.regs = .unpacker u → a'.regs = .unpacker u) ∧
      (∀ p, a.regs = .packer p → a'.regs = .packer (Packer.reset a.cfg))

/-- R106 (a), (b): a second `flush` with no `push` between returns the empty sequence and changes
nothing; a flush at a symbol boundary returns `PEND` only. -/
def Obligations.FlushTwiceIsEmpty : Prop :=
  ∀ (s : State) (k : Nat) (a : Agent) (p : Packer),
    s.agents[k]? = some a → ConfigOK a.cfg → a.regs = .packer p →
    ∃ out, s.perform k [.flush, .flush] =
      .next (s.answered k a (.packer (Packer.reset a.cfg)) [.symbols out, .symbols []]) ∧
      (p.slot = a.cfg.sw → out = p.pend)

/-- R152: a flush with a partial symbol pending pads its missing low `SLOT` bits with zero; in general
the last symbol of a flush with `T mod SW = r`, `r` not 0, has its low `SW - r` bits zero; and DOC0's
example (E1): `SW = 6`, identity alphabet, pushing 7 with width 3 then flushing yields 56. -/
def Obligations.PaddingLaw : Prop :=
  (∀ (c : Cfg) (p : Packer), ConfigOK c → p.Inv c → p.slot ≠ c.sw →
    ∃ code, p.flushed c = p.pend ++ [encodeSymbol c code] ∧ code < 2 ^ c.sw ∧ code % 2 ^ p.slot = 0 ∧
      code >>> p.slot = p.acc >>> p.slot) ∧
  (∀ (s : State) (k : Nat) (a : Agent) (pushes : List (Nat × Nat)),
    s.agents[k]? = some a → ConfigOK a.cfg → a.regs = .packer (Packer.reset a.cfg) →
    (∀ x ∈ pushes, 1 ≤ x.2 ∧ x.2 ≤ 32 ∧ x.1 < 2 ^ x.2) →
    let r := totalWidth pushes % a.cfg.sw
    fits a.cfg.pendCap (totalWidth pushes / a.cfg.sw) = true → r ≠ 0 →
    ∃ before code, code < 2 ^ a.cfg.sw ∧ code % 2 ^ (a.cfg.sw - r) = 0 ∧
      s.perform k ((pushes.map fun x => .push x.1 x.2) ++ [.flush]) =
        .next (s.answered k a a.regs ((pushes.map fun _ => .okay) ++
          [.symbols (before ++ [encodeSymbol a.cfg code])]))) ∧
  (∀ (s : State) (k : Nat) (a : Agent),
    s.agents[k]? = some a → a.cfg = Cfg.identity 6 → a.regs = .packer (Packer.reset a.cfg) →
    s.perform k [.push 7 3, .flush] =
      .next (s.answered k a a.regs [.okay, .symbols [56]]))

/-! ### `load` (spec/41_unpacker.md) -/

/-- R120: `load` of symbols that all decode, within capacity, completes with `STATUS = OK` and replaces
`SRC`, with the cursor at bit 0. -/
def Obligations.LoadReplacesSource : Prop :=
  ∀ (s : State) (k : Nat) (a : Agent) (u : Unpacker) (input : List SymWord),
    s.active = some (k, a) → ConfigOK a.cfg → a.regs = .unpacker u →
    (∀ cap, a.cfg.srcCap = some cap → input.length ≤ cap) →
    (∀ x ∈ input, ∃ v, decodeSymbol a.cfg x = some v) →
    exec (.load input) s = .next (s.complete k a (1 + input.length)
      (.unpacker { src := input, idx := 0, res := a.cfg.sw, avail := input.length * a.cfg.sw })
      { status := .ok, null := false, result := 0, out := [] })

/-- R120, R155, R185: `load` over capacity is rejected with `E_CAPACITY`, whatever the symbols; one
within capacity with a symbol on which `DEC` answers invalid, or with a bit set at or above `SYM_BITS`
(R77), anywhere in it, is rejected with `E_SYMBOL`; the prior source and cursor stay, and all its words
are consumed (R76). -/
def Obligations.LoadRejections : Prop :=
  ∀ (s : State) (k : Nat) (a : Agent) (u : Unpacker) (input : List SymWord),
    s.active = some (k, a) → ConfigOK a.cfg → a.regs = .unpacker u →
    (∀ cap, a.cfg.srcCap = some cap → cap < input.length →
      exec (.load input) s = .next (s.reject k a (1 + input.length) .eCapacity)) ∧
    ((∀ cap, a.cfg.srcCap = some cap → input.length ≤ cap) →
      (∃ x ∈ input, decodeSymbol a.cfg x = none ∨ 2 ^ a.cfg.symBits ≤ x.toNat) →
      exec (.load input) s = .next (s.reject k a (1 + input.length) .eSymbol))

/-- R38, R120, R183: what a `load` leaves unchanged: every other instance, the configuration, the
registers of a PACKER it is sent to; and if it is rejected, all four pieces of the UNPACKER's state. -/
def Obligations.LoadFrame : Prop :=
  ∀ (s t : State) (k : Nat) (a : Agent) (input : List SymWord),
    exec (.load input) s = .next t → s.active = some (k, a) →
    (∀ j, j ≠ k → t.agents[j]? = s.agents[j]?) ∧ t.host = s.host.tail ∧
    ∃ a' r, t.agents[k]? = some a' ∧ a'.cfg = a.cfg ∧ a'.respPort = a.respPort ++ [r] ∧
      (∀ p, a.regs = .packer p → a'.regs = .packer p ∧ a'.cmdPort = a.cmdPort.drop 1) ∧
      (∀ u, a.regs = .unpacker u → a'.cmdPort = a.cmdPort.drop (1 + input.length) ∧
        (r.status ≠ .ok → a'.regs = .unpacker u) ∧
        (r.status = .ok → ∃ u', a'.regs = .unpacker u' ∧ u'.src = input))

/-! ### `pop` (spec/41_unpacker.md) -/

/-- R121 steps 1 and 2: a `pop` of width 0 or above 32 is rejected with `E_WIDTH_RANGE` in every state,
also an exhausted one; a legal one on an exhausted UNPACKER answers null with `STATUS = OK` and writes
no state. -/
def Obligations.PopRejectionAndNull : Prop :=
  ∀ (s : State) (k : Nat) (a : Agent) (u : Unpacker) (width : Nat),
    s.active = some (k, a) → ConfigOK a.cfg → a.regs = .unpacker u →
    (¬ (1 ≤ width ∧ width ≤ 32) →
      exec (.pop width) s = .next (s.reject k a 1 .eWidthRange)) ∧
    (1 ≤ width → width ≤ 32 → u.avail = 0 →
      exec (.pop width) s = .next (s.complete k a 1 (.unpacker u)
        { status := .ok, null := true, result := 0, out := [] }))

/-- R158: with `AVAIL > 0`, a `pop` of legal width completes and returns `MemRead(POS, w')`, where
`w' = min(width, AVAIL)` and `POS = IDX*SW + SW - RES = LEN*SW - AVAIL`, and leaves the state whose
position is `POS + w'`; the result is an integer of `w'` bits. With `AVAIL = 0` it answers null and
leaves the state as it is. -/
def Obligations.PopReadsTheStream : Prop :=
  ∀ (s : State) (k : Nat) (a : Agent) (u : Unpacker) (width : Nat),
    s.active = some (k, a) → ConfigOK a.cfg → a.regs = .unpacker u → u.Inv a.cfg →
    1 ≤ width → width ≤ 32 →
    let sw := a.cfg.sw
    let pos := u.idx * sw + sw - u.res
    let w := min width u.avail
    (0 < u.avail →
      pos + u.avail = u.src.length * sw ∧ memRead a.cfg u.src pos w < 2 ^ w ∧
      exec (.pop width) s = .next (s.complete k a 1
        (.unpacker
          { src := u.src
            idx := (pos + w) / sw
            res := sw - (pos + w) % sw
            avail := u.src.length * sw - (pos + w) })
        { status := .ok, null := false, result := BitVec.ofNat 32 (memRead a.cfg u.src pos w)
          out := [] })) ∧
    (u.avail = 0 →
      exec (.pop width) s = .next (s.complete k a 1 (.unpacker u)
        { status := .ok, null := true, result := 0, out := [] }))

/-! ### `offset` (spec/41_unpacker.md) -/

/-- R126: a negative `skip` is rejected with `E_SEEK` and changes nothing; any other completes with
`IDX = skip div SW`, `RES = SW - skip mod SW`, `AVAIL = max(0, LEN*SW - skip)`, in every state, past the
end too, and `SRC` is not touched. -/
def Obligations.OffsetSeeks : Prop :=
  ∀ (s : State) (k : Nat) (a : Agent) (u : Unpacker) (skip : Int),
    s.active = some (k, a) → ConfigOK a.cfg → a.regs = .unpacker u →
    (skip < 0 → exec (.offset skip) s = .next (s.reject k a 1 .eSeek)) ∧
    (0 ≤ skip → exec (.offset skip) s = .next (s.complete k a 1
      (.unpacker
        { src := u.src
          idx := skip.toNat / a.cfg.sw
          res := a.cfg.sw - skip.toNat % a.cfg.sw
          avail := u.src.length * a.cfg.sw - skip.toNat })
      { status := .ok, null := false, result := 0, out := [] }))

/-- R38, R26: what a `pop` and an `offset` leave unchanged: every other instance, the configuration, the
registers of a PACKER they are sent to, and of the UNPACKER all of `SRC`, so that every bit of it reads
as before (R58; an address beyond the source reads as 0 both times, by the model's choice of log 25). -/
def Obligations.CursorCommandsFrame : Prop :=
  ∀ (s t : State) (k : Nat) (a : Agent) (i : Instr),
    ((∃ width, i = .pop width) ∨ (∃ skip, i = .offset skip)) →
    exec i s = .next t → s.active = some (k, a) →
    (∀ j, j ≠ k → t.agents[j]? = s.agents[j]?) ∧ t.host = s.host.tail ∧
    ∃ a', t.agents[k]? = some a' ∧ a'.cfg = a.cfg ∧ a'.cmdPort = a.cmdPort.drop 1 ∧
      (∃ r, a'.respPort = a.respPort ++ [r]) ∧
      (∀ p, a.regs = .packer p → a'.regs = .packer p) ∧
      (∀ u, a.regs = .unpacker u → ∃ u', a'.regs = .unpacker u' ∧ u'.src = u.src ∧
        ∀ b, streamBit a'.cfg u'.src b = streamBit a.cfg u.src b)

/-! ### Errors (spec/60_exceptions.md) -/

/-- R87: a command of the other kind of unit is rejected with `E_ILLEGAL`, only its command word
consumed. -/
def Obligations.OtherUnitsCommandIllegal : Prop :=
  ∀ (i : Instr) (s : State) (k : Nat) (a : Agent),
    s.active = some (k, a) → ConfigOK a.cfg → i.kind ≠ a.kind →
    exec i s = .next (s.reject k a 1 .eIllegal)

/-- R182: the codes each command can end with, completely. -/
def Obligations.CodesOfEachCommand : Prop :=
  ∀ (i : Instr) (s t : State) (k : Nat) (a : Agent),
    exec i s = .next t → s.active = some (k, a) →
    ∃ a' r, t.agents[k]? = some a' ∧ a'.respPort = a.respPort ++ [r] ∧
      r.status ∈
        match i with
        | .push _ _ => [Status.ok, .eIllegal, .eWidthRange, .eUnsigned, .eWidthSmall, .eCapacity]
        | .flush => [.ok, .eIllegal]
        | .load _ => [.ok, .eIllegal, .eCapacity, .eSymbol]
        | .pop _ => [.ok, .eIllegal, .eWidthRange]
        | .offset _ => [.ok, .eIllegal, .eSeek]

/-- R183, R184: a step whose response is a rejection writes no state: the registers of the instance are
as before in every component, and it records nothing but the code in the response. -/
def Obligations.RejectionWritesNoState : Prop :=
  ∀ (s t : State) (k : Nat) (a a' : Agent) (r : Response),
    s.active = some (k, a) → step s = .next t → t.agents[k]? = some a' →
    a'.respPort = a.respPort ++ [r] → r.status ≠ .ok →
    a'.regs = a.regs ∧ a'.cfg = a.cfg ∧ r = { status := r.status, null := false, result := 0, out := [] }

/-- R160: in every state that meets the invariant, every command has exactly one outcome, and it is a
next state: no operation faults. -/
def Obligations.EveryCommandCompletes : Prop :=
  ∀ (i : Instr) (s : State) (k : Nat) (a : Agent),
    s.active = some (k, a) → a.Inv → ∃ t, exec i s = .next t

/-! ### Reset and invariants (spec/10_state.md, spec/70_reset_and_hazards.md) -/

/-- R42, R43, R210: what construction leaves in each instance, for every list of instances. -/
def Obligations.ConstructionResetsRegisters : Prop :=
  ∀ (units : List (UnitKind × Cfg)) (k : Nat) (c : Cfg),
    (units[k]? = some (.packer, c) →
      ∃ a, (State.construct units).agents[k]? = some a ∧ a.cfg = c ∧
        a.regs = .packer { acc := 0, slot := c.sw, pend := [] }) ∧
    (units[k]? = some (.unpacker, c) →
      ∃ a, (State.construct units).agents[k]? = some a ∧ a.cfg = c ∧
        a.regs = .unpacker { src := [], idx := 0, res := c.sw, avail := 0 })

/-- The invariant holds of every machine just constructed from well-formed configurations, and of
`State.reset` (whose configuration is the model's choice, log 4). -/
def Obligations.InvariantAtReset : Prop :=
  (∀ units : List (UnitKind × Cfg), (∀ x ∈ units, ConfigOK x.2) → (State.construct units).Inv) ∧
  State.reset.Inv

/-- R24, R31, R161: every step keeps the invariants, from every state that meets them. -/
def Obligations.StepKeepsInvariant : Prop :=
  ∀ (s t : State), s.Inv → step s = .next t → t.Inv

/-- R160, R161: from every state that meets the invariant the machine takes a step to a next state that
meets it: it never faults and never refuses. -/
def Obligations.SafeMachineNeverStops : Prop :=
  ∀ (s : State), s.Inv → ∃ t, step s = .next t ∧ t.Inv

/-- R161: a null `pop` preserves the state itself, and so does every rejected command: as R183. -/
def Obligations.NullPopPreservesState : Prop :=
  ∀ (s t : State) (k : Nat) (a a' : Agent) (r : Response) (width : Nat),
    s.active = some (k, a) → exec (.pop width) s = .next t → t.agents[k]? = some a' →
    a'.respPort = a.respPort ++ [r] → r.null = true → a'.regs = a.regs

/-- R32: a state that meets the invariant is determined by `SRC` and the bit position `POS`. -/
def Obligations.CursorIsThePosition : Prop :=
  ∀ (c : Cfg) (u : Unpacker), ConfigOK c → u.Inv c →
    u.idx = u.pos c / c.sw ∧ u.res = c.sw - u.pos c % c.sw ∧
    u.avail = (max 0 ((u.len : Int) * c.sw - u.pos c)).toNat

/-- R5, R40: no step changes the configuration of any instance, its kind, or the number of instances. -/
def Obligations.ConfigurationFixed : Prop :=
  ∀ (s t : State), step s = .next t →
    t.agents.map Agent.cfg = s.agents.map Agent.cfg ∧ t.agents.map Agent.kind = s.agents.map Agent.kind

/-- R26, R51: a step that changes the source of an UNPACKER is a `load` at its port that it accepted,
which replaces the source whole, or its reset input. -/
def Obligations.OnlyLoadWritesSource : Prop :=
  ∀ (s t : State) (k : Nat) (a a' : Agent) (u u' : Unpacker),
    step s = .next t → s.agents[k]? = some a → t.agents[k]? = some a' →
    a.regs = .unpacker u → a'.regs = .unpacker u' → u'.src ≠ u.src →
    (s.host.head? = some (.command k) ∧ ∃ rest, decode a.cmdPort = .instr (.load u'.src) rest) ∨
    (s.host.head? = some (.reset k) ∧ u'.src = [])

/-- R211: `flush` always returns a PACKER to its reset state; `load []` always returns an UNPACKER to
its reset state; `offset 0` keeps `SRC` and rewinds to the just-loaded state, which is the reset state
only if nothing is loaded. -/
def Obligations.OperationsThatReset : Prop :=
  (∀ (s : State) (k : Nat) (a : Agent) (p : Packer),
    s.agents[k]? = some a → ConfigOK a.cfg → a.regs = .packer p →
    ∃ r, s.perform k [.flush] = .next (s.answered k a (.packer (Packer.reset a.cfg)) [r])) ∧
  (∀ (s : State) (k : Nat) (a : Agent) (u : Unpacker),
    s.agents[k]? = some a → ConfigOK a.cfg → a.regs = .unpacker u →
    s.perform k [.load []] = .next (s.answered k a (.unpacker (Unpacker.reset a.cfg)) [.okay]) ∧
    s.perform k [.offset 0] = .next (s.answered k a (.unpacker (Unpacker.loaded a.cfg u.src)) [.okay]) ∧
    (Unpacker.loaded a.cfg u.src = Unpacker.reset a.cfg ↔ u.src = []))

/-! ### Storage (spec/20_memory.md) -/

/-- R55: reading `m` bits then `n` bits gives the same bits as reading `m + n` at once. It is stated of every
address; that a bit beyond the source reads as 0 is the model's choice (log 25). -/
def Obligations.MemReadSplits : Prop :=
  ∀ (c : Cfg) (src : List SymWord) (p m n : Nat),
    memRead c src p (m + n) = memRead c src p m * 2 ^ n + memRead c src (p + m) n

/-- R54: `MemRead` is the slice of the one integer made of all the symbol codes. -/
def Obligations.MemReadIsSlice : Prop :=
  ∀ (c : Cfg) (src : List SymWord) (b n : Nat), ConfigOK c →
    (src.all fun x => (decodeSymbol c x).isSome) = true → b + n ≤ src.length * c.sw →
    memRead c src b n = (streamNat c src >>> (src.length * c.sw - b - n)) % 2 ^ n

/-! ### Laws over sequences of commands (spec/42_laws.md) -/

/-- R157: after any pushes on a fresh PACKER, with `(v_i, w_i)` the accepted ones, `PEND`, `SLOT` and
`ACC` are those of the bits of `B` alone, and `flush` returns all `m` symbols; rejected pushes
contribute nothing. -/
def Obligations.PackerStreamLaw : Prop :=
  ∀ (s : State) (k : Nat) (a : Agent) (pushes : List (Int × Nat)),
    s.agents[k]? = some a → ConfigOK a.cfg → a.regs = .packer (Packer.reset a.cfg) →
    (∀ x ∈ pushes, (Instr.push x.1 x.2).wellFormed = true) →
    ∃ p rs, s.perform k (pushes.map fun x => .push x.1 x.2) = .next (s.answered k a (.packer p) rs) ∧
      rs.length = pushes.length ∧
      let accepted := (pushes.zip rs).filterMap fun x =>
        if x.2.status = .ok then some (x.1.1.toNat, x.1.2) else none
      let sw := a.cfg.sw
      let t := totalWidth accepted
      let m := (t + sw - 1) / sw
      let bp := concatValues accepted <<< (m * sw - t)
      p.pend = (packedSymbols a.cfg accepted).take (t / sw) ∧
      p.slot = sw - t % sw ∧
      p.acc = (if t % sw ≠ 0 then bp % 2 ^ sw else 0) ∧
      s.perform k ((pushes.map fun x => .push x.1 x.2) ++ [.flush]) =
        .next (s.answered k a (.packer (Packer.reset a.cfg))
          (rs ++ [.symbols (packedSymbols a.cfg accepted)]))

/-- R159: for `m, n >= 1` with `m + n <= 32` and `AVAIL >= m + n`, `pop(m)` then `pop(n)` leave the same
state as one `pop(m + n)`, which returns `x * 2^n + y`. -/
def Obligations.SplitLaw : Prop :=
  ∀ (s : State) (k : Nat) (a : Agent) (u : Unpacker) (m n : Nat),
    s.agents[k]? = some a → ConfigOK a.cfg → a.regs = .unpacker u → u.Inv a.cfg →
    1 ≤ m → 1 ≤ n → m + n ≤ 32 → m + n ≤ u.avail →
    ∃ u' x y, x < 2 ^ m ∧ y < 2 ^ n ∧
      s.perform k [.pop m, .pop n] =
        .next (s.answered k a (.unpacker u') [.value x, .value y]) ∧
      s.perform k [.pop (m + n)] =
        .next (s.answered k a (.unpacker u') [.value (x * 2 ^ n + y)])

/-- R153: with `0 < AVAIL < width <= 32`, `pop(width)` returns `MemRead(POS, AVAIL)` with `STATUS = OK`
and `NULL = 0` and leaves `AVAIL = 0`, and every later `pop` of a legal width answers null. -/
def Obligations.ClampingLaw : Prop :=
  ∀ (s : State) (k : Nat) (a : Agent) (u : Unpacker) (width : Nat) (later : List Nat),
    s.agents[k]? = some a → ConfigOK a.cfg → a.regs = .unpacker u → u.Inv a.cfg →
    0 < u.avail → u.avail < width → width ≤ 32 → (∀ w ∈ later, 1 ≤ w ∧ w ≤ 32) →
    ∃ u', u'.avail = 0 ∧
      s.perform k (.pop width :: later.map .pop) =
        .next (s.answered k a (.unpacker u')
          (.value (memRead a.cfg u.src (u.pos a.cfg) u.avail) :: later.map fun _ => .nullAnswer))

/-- R154: `offset(skip)` then `pop(width)` gives the response and the state of rewinding and popping the
first bits away, in any chunks that add up to `min(skip, LEN*SW)`; for `skip > LEN*SW` both states are
exhausted, every later `pop` answers null in both, and only `(IDX, RES)` may differ. -/
def Obligations.SeekLaw : Prop :=
  ∀ (s : State) (k : Nat) (a : Agent) (u : Unpacker) (skip width : Nat) (chunks : List Nat),
    s.agents[k]? = some a → ConfigOK a.cfg → a.regs = .unpacker u → u.Inv a.cfg →
    skip < 2 ^ 47 → 1 ≤ width → width ≤ 32 → (∀ w ∈ chunks, 1 ≤ w ∧ w ≤ 32) →
    chunks.sum = min skip (u.src.length * a.cfg.sw) →
    ∃ u₁ u₂ r rs s₁ s₂, rs.length = chunks.length ∧
      s.perform k [.offset skip, .pop width] = .next s₁ ∧
      s₁ = s.answered k a (.unpacker u₁) [.okay, r] ∧
      s.perform k (.offset 0 :: chunks.map .pop ++ [.pop width]) = .next s₂ ∧
      s₂ = s.answered k a (.unpacker u₂) (.okay :: rs ++ [r]) ∧
      (skip ≤ u.src.length * a.cfg.sw → u₁ = u₂) ∧
      (u.src.length * a.cfg.sw < skip →
        u₁.src = u₂.src ∧ u₁.avail = 0 ∧ u₂.avail = 0 ∧ r = .nullAnswer ∧
        ∀ later : List Nat, (∀ w ∈ later, 1 ≤ w ∧ w ≤ 32) →
          s₁.perform k (later.map .pop) =
            .next (s.answered k a (.unpacker u₁) ([.okay, r] ++ later.map fun _ => .nullAnswer)) ∧
          s₂.perform k (later.map .pop) =
            .next (s.answered k a (.unpacker u₂)
              ((.okay :: rs ++ [r]) ++ later.map fun _ => .nullAnswer)))

/-- R156: `pop` on a freshly constructed UNPACKER returns null, and so does `pop` after an `offset` at or
beyond the total length. -/
def Obligations.BoundaryLaw : Prop :=
  ∀ (s : State) (k : Nat) (a : Agent) (u : Unpacker) (skip width : Nat),
    s.agents[k]? = some a → ConfigOK a.cfg → a.regs = .unpacker u →
    1 ≤ width → width ≤ 32 →
    (u = Unpacker.reset a.cfg →
      s.perform k [.pop width] = .next (s.answered k a (.unpacker u) [.nullAnswer])) ∧
    (u.src.length * a.cfg.sw ≤ skip → skip < 2 ^ 47 →
      ∃ u', u'.avail = 0 ∧
        s.perform k [.offset skip, .pop width] =
          .next (s.answered k a (.unpacker u') [.okay, .nullAnswer]))

/-- R151: the round trip. Under `MappingInverse` and the same `SW`, with every `(v_i, w_i)` legal and
room for the symbols, pushing all on a fresh PACKER and flushing, then loading what the flush returned
into any UNPACKER and popping the same widths, returns the same values, none null and none clamped, and
leaves exactly the pad bits, all zero. -/
def Obligations.RoundTrip : Prop :=
  ∀ (s : State) (kp ku : Nat) (ap au : Agent) (u : Unpacker) (pushes : List (Nat × Nat)),
    s.agents[kp]? = some ap → ConfigOK ap.cfg → ap.regs = .packer (Packer.reset ap.cfg) →
    s.agents[ku]? = some au → ConfigOK au.cfg → au.regs = .unpacker u →
    au.cfg.sw = ap.cfg.sw → MappingInverse ap.cfg au.cfg →
    (∀ x ∈ pushes, 1 ≤ x.2 ∧ x.2 ≤ 32 ∧ x.1 < 2 ^ x.2) →
    let sw := ap.cfg.sw
    let t := totalWidth pushes
    fits ap.cfg.pendCap (t / sw) = true → fits au.cfg.srcCap ((t + sw - 1) / sw) = true →
    (t + sw - 1) / sw < 2 ^ 47 →
    ∃ out s₁ u',
      s.perform kp ((pushes.map fun x => .push x.1 x.2) ++ [.flush]) = .next s₁ ∧
      s₁ = s.answered kp ap ap.regs ((pushes.map fun _ => .okay) ++ [.symbols out]) ∧
      s₁.perform ku (.load out :: pushes.map fun x => .pop x.2) =
        .next (s₁.answered ku au (.unpacker u') (.okay :: pushes.map fun x => .value x.1)) ∧
      u'.avail = (sw - t % sw) % sw ∧
      memRead au.cfg u'.src (u'.pos au.cfg) u'.avail = 0

/-- R218: two flushes in a row. If the first is at a symbol boundary (the widths before it a multiple
of `SW`), what the two return together is what one flush over all the pushes returns. -/
def Obligations.FlushAtBoundaryTransparent : Prop :=
  ∀ (s : State) (k : Nat) (a : Agent) (before after : List (Nat × Nat)),
    s.agents[k]? = some a → ConfigOK a.cfg → a.cfg.pendCap = none →
    a.regs = .packer (Packer.reset a.cfg) →
    (∀ x ∈ before ++ after, 1 ≤ x.2 ∧ x.2 ≤ 32 ∧ x.1 < 2 ^ x.2) →
    totalWidth before % a.cfg.sw = 0 →
    let push := fun x : Nat × Nat => Instr.push x.1 x.2
    ∃ out₁ out₂,
      s.perform k (before.map push ++ [.flush] ++ after.map push ++ [.flush]) =
        .next (s.answered k a a.regs ((before.map fun _ => .okay) ++ [.symbols out₁] ++
          (after.map fun _ => .okay) ++ [.symbols out₂])) ∧
      s.perform k (before.map push ++ after.map push ++ [.flush]) =
        .next (s.answered k a a.regs ((before.map fun _ => .okay) ++ (after.map fun _ => .okay) ++
          [.symbols (out₁ ++ out₂)]))

/-! ### Independent instances (spec/60_exceptions.md R196) -/

/-- R196: no interleaving changes any instance's result: two host acts on different instances, in either
order, lead to the same state. That one step serves one instance, in the order of the host's script, is the
model's (log 14). -/
def Obligations.InterleavingIrrelevant : Prop :=
  ∀ (s t : State) (x y : HostAct) (rest : List HostAct), x.target ≠ y.target →
    ((∃ m, step { s with host := x :: y :: rest } = .next m ∧ step m = .next t) ↔
      ∃ m, step { s with host := y :: x :: rest } = .next m ∧ step m = .next t)

/-- R50, R196: a step changes no instance but the one the host acts on, and what it does to that one
depends on nothing of the others. -/
def Obligations.InstancesShareNothing : Prop :=
  ∀ (s₁ s₂ t₁ : State) (act : HostAct) (rest₁ rest₂ : List HostAct),
    s₁.host = act :: rest₁ → s₂.host = act :: rest₂ →
    s₁.agents[act.target]? = s₂.agents[act.target]? → step s₁ = .next t₁ →
    (∀ j, j ≠ act.target → t₁.agents[j]? = s₁.agents[j]?) ∧
    ∃ t₂, step s₂ = .next t₂ ∧ t₂.agents[act.target]? = t₁.agents[act.target]?

/-! ### Realisations and the host's side -/

/-- The symbol-emit FSM of R104, which is informative there, started on a `push`, comes to `idle` with the
registers and the response of the atomic `push`. What one tick does is the model's choice (log 20), and so
are the numbers of ticks: one if the `push` is rejected, else three and one for each symbol emitted. -/
def Obligations.EmitFsmIsPush : Prop :=
  ∀ (c : Cfg) (p : Packer) (value : Int) (width : Nat), ConfigOK c → p.Inv c →
    (∀ e, Packer.push value width c p = .rejected e →
      EmitFsm.run c value width 1 (.start p) = { regs := p, phase := .idle (.error e) }) ∧
    (∀ p' r, Packer.push value width c p = .done p' r →
      EmitFsm.run c value width ((c.sw - p.slot + width) / c.sw + 3) (.start p) =
        { regs := p', phase := .idle r })

/-- The extract FSM of R124, which is informative there, started on a `pop`, comes to `idle` with the
registers and the response of the atomic `pop`. What one tick does is the model's choice (log 20): a `next`
after every `take`, and so the bound of 65 ticks, one check and at most 32 takes with a `next` each. -/
def Obligations.ExtractFsmIsPop : Prop :=
  ∀ (c : Cfg) (u : Unpacker) (width : Nat), ConfigOK c → u.Inv c →
    (∀ e, Unpacker.pop width c u = .rejected e →
      ExtractFsm.run c width 65 (.start u) = { regs := u, phase := .idle (.error e) }) ∧
    (∀ u' r, Unpacker.pop width c u = .done u' r →
      ExtractFsm.run c width 65 (.start u) = { regs := u', phase := .idle r })

/-- R191: the adapter sends only commands the port can carry, and for `offset` never another position
than the one asked for; a call the command word cannot express is not sent, and fails with the error R191
assigns where it assigns one. -/
def Obligations.AdapterSendsOnlyCarried : Prop :=
  (∀ (call : Call) (i : Instr), adapt call = .send i → i.wellFormed = true) ∧
  (∀ (skip : Int) (i : Instr), adapt (.offset (some (.int skip))) = .send i → i = .offset skip) ∧
  (∀ (value width : Int), InOpndRange value → 0 ≤ width → width ≤ 63 →
    adapt (.push (.int value) (some (.int width))) = .send (.push value width.toNat)) ∧
  (∀ (value width : Int), 0 ≤ width → width ≤ 63 →
    (2 ^ 47 ≤ value → adapt (.push (.int value) (some (.int width))) = .failed .eWidthSmall) ∧
    (value < -(2 ^ 47) → adapt (.push (.int value) (some (.int width))) = .failed .eUnsigned)) ∧
  (∀ (skip : Int), skip < -(2 ^ 47) → adapt (.offset (some (.int skip))) = .failed .eSeek) ∧
  (∀ (width : Int), 63 < width → adapt (.pop (some (.int width))) = .failed .eWidthRange) ∧
  adapt (.offset (some .notAnInteger)) = .failed .eSeek ∧
  adapt (.load none) = .failed .eSymbol ∧
  (∀ (width : Option CallOperand) (i : Instr), adapt (.push .notAnInteger width) ≠ .send i) ∧
  (∀ (value : CallOperand) (i : Instr), adapt (.push value (some .notAnInteger)) ≠ .send i) ∧
  (∀ i : Instr, adapt (.pop (some .notAnInteger)) ≠ .send i)

/-- R75, R85: the pseudo-instructions: `push <value>` is `push <value>, 8`, `pop` is `pop 8`, `offset` is
`offset 0`, and the line `P: push 77` of spec/95_test_vectors.md program P1 reads as that. -/
def Obligations.PseudoInstructions : Prop :=
  (∀ value : Int, InOpndRange value → adapt (.push (.int value) none) = .send (.push value 8)) ∧
  adapt (.pop none) = .send (.pop 8) ∧
  adapt (.offset none) = .send (.offset 0) ∧
  parseLine ['P', ':', ' ', 'p', 'u', 's', 'h', ' ', '7', '7'] =
    .command (some { kind := .packer, number := none }) (.push (.int 77) none) ∧
  assembleLine ['p', 'o', 'p'] = some (.pop 8)
end

