-- ==== Sys2Proof/Laws/Decode.lean ====
section
/-! SUPPORT. The fields of an encoded command word, and decoding of a word from its fields. -/

namespace Sys2Proof

variable (op : BitVec 3) (width : BitVec 6) (opnd : BitVec 48)

/-! ### The fields of `header` -/

theorem header_toNat :
    (header op width opnd).toNat = op.toNat * 2 ^ 61 + width.toNat * 2 ^ 55 + opnd.toNat := by
  unfold header
  have h1 := op.isLt
  have h2 := width.isLt
  have h3 := opnd.isLt
  have h0 : (0 : BitVec 7).toNat = 0 := rfl
  rw [BitVec.toNat_append, BitVec.toNat_append, BitVec.toNat_append, h0, Nat.or_zero,
    ← Nat.shiftLeft_add_eq_or_of_lt h3, ← Nat.shiftLeft_add_eq_or_of_lt h2,
    Nat.shiftLeft_eq, Nat.shiftLeft_eq, Nat.shiftLeft_eq]
  omega

@[simp] theorem opField_header : opField (header op width opnd) = op := by
  apply BitVec.eq_of_toNat_eq
  have h1 := op.isLt
  have h2 := width.isLt
  have h3 := opnd.isLt
  simp only [opField, BitVec.extractLsb'_toNat, header_toNat, Nat.shiftRight_eq_div_pow]
  omega

@[simp] theorem widthField_header : widthField (header op width opnd) = width := by
  apply BitVec.eq_of_toNat_eq
  have h1 := op.isLt
  have h2 := width.isLt
  have h3 := opnd.isLt
  simp only [widthField, BitVec.extractLsb'_toNat, header_toNat, Nat.shiftRight_eq_div_pow]
  omega

@[simp] theorem rsvField_header : rsvField (header op width opnd) = 0 := by
  apply BitVec.eq_of_toNat_eq
  have h1 := op.isLt
  have h2 := width.isLt
  have h3 := opnd.isLt
  simp only [rsvField, BitVec.extractLsb'_toNat, header_toNat, Nat.shiftRight_eq_div_pow]
  simp
  omega

@[simp] theorem opndField_header : opndField (header op width opnd) = opnd := by
  apply BitVec.eq_of_toNat_eq
  have h1 := op.isLt
  have h2 := width.isLt
  have h3 := opnd.isLt
  simp only [opndField, BitVec.extractLsb'_toNat, header_toNat, Nat.shiftRight_eq_div_pow]
  omega

/-- A word with `RSV = 0` is the word of its other three fields. -/
theorem header_fields (cw : Word) (h : rsvField cw = 0) :
    header (opField cw) (widthField cw) (opndField cw) = cw := by
  apply BitVec.eq_of_toNat_eq
  have hr := congrArg BitVec.toNat h
  have hlt := cw.isLt
  simp only [rsvField, BitVec.extractLsb'_toNat, Nat.shiftRight_eq_div_pow] at hr
  simp only [header_toNat, opField, widthField, opndField, BitVec.extractLsb'_toNat, Nat.shiftRight_eq_div_pow]
  simp at hr
  omega

/-! ### Operands -/

@[simp] theorem intOperand_header : intOperand (header op width opnd) = opnd.toInt := by
  simp [intOperand]

@[simp] theorem widthOperand_header : widthOperand (header op width opnd) = width.toNat := by
  simp [widthOperand]

/-- The 48-bit operand holds every integer of its range (R73). -/
theorem toInt_ofInt_48 {v : Int} (h : InOpndRange v) : (BitVec.ofInt 48 v).toInt = v := by
  obtain ⟨h1, h2⟩ := h
  rw [BitVec.toInt_ofInt, Int.bmod_eq_of_le] <;> norm_num <;> omega

/-- The 48-bit operand holds every symbol count below `2^47` (R76). -/
theorem toInt_ofNat_48 {n : Nat} (h : n < 2 ^ 47) : (BitVec.ofNat 48 n).toInt = n := by
  have hn : (BitVec.ofNat 48 n).toNat = n := by
    rw [BitVec.toNat_ofNat]; omega
  rw [BitVec.toInt_eq_toNat_of_lt] <;> rw [hn]
  omega

/-! ### Decoding one command word -/

/-- Decoding the word with the given fields. -/
@[simp] theorem decodeHeader_header (op : BitVec 3) (w : BitVec 6) (o : BitVec 48) :
    decodeHeader (header op w o) = decodeFields op w o := by
  simp [decodeHeader]

/-- Every word's operand is in the range of R73. -/
theorem intOperand_range (cw : Word) : InOpndRange (intOperand cw) := by
  unfold intOperand
  have h1 := (opndField cw).toInt_lt
  have h2 := (opndField cw).le_toInt
  constructor <;> simpa using by assumption

/-- What a word that decodes looks like, field by field (R72, R79, R81). -/
theorem decodeHeader_ok {cw : Word} {h : Header} (hd : decodeHeader cw = .ok h) :
    rsvField cw = 0 ∧
      ((opField cw = 0 ∧ h = .push (intOperand cw) (widthOperand cw)) ∨
       (opField cw = 1 ∧ widthField cw = 0 ∧ opndField cw = 0 ∧ h = .flush) ∨
       (opField cw = 2 ∧ widthField cw = 0 ∧ 0 ≤ intOperand cw ∧ h = .load (intOperand cw).toNat) ∨
       (opField cw = 3 ∧ opndField cw = 0 ∧ h = .pop (widthOperand cw)) ∨
       (opField cw = 4 ∧ widthField cw = 0 ∧ h = .offset (intOperand cw))) := by
  unfold decodeHeader at hd
  split at hd
  · cases hd
  · next hr =>
    refine ⟨by simpa using hr, ?_⟩
    unfold decodeFields at hd
    unfold intOperand widthOperand
    generalize hop : (opField cw).toNat = op at hd
    split at hd
    · exact .inl ⟨BitVec.eq_of_toNat_eq hop, (Except.ok.inj hd).symm⟩
    · split at hd
      · cases hd
      · split at hd
        · cases hd
        · exact .inr (.inl ⟨BitVec.eq_of_toNat_eq hop, by simp_all, by simp_all, (Except.ok.inj hd).symm⟩)
    · split at hd
      · cases hd
      · split at hd
        · cases hd
        · exact .inr (.inr (.inl ⟨BitVec.eq_of_toNat_eq hop, by simp_all, by omega, (Except.ok.inj hd).symm⟩))
    · split at hd
      · cases hd
      · exact .inr (.inr (.inr (.inl ⟨BitVec.eq_of_toNat_eq hop, by simp_all, (Except.ok.inj hd).symm⟩)))
    · split at hd
      · cases hd
      · exact .inr (.inr (.inr (.inr ⟨BitVec.eq_of_toNat_eq hop, by simp_all, (Except.ok.inj hd).symm⟩)))
    · cases hd

/-! ### The port words of a command -/

/-- A command has as many port words as its encoding (R76). -/
@[simp] theorem encode_length (i : Instr) : (encode i).length = i.wordCount := by
  cases i <;> simp [encode, Instr.wordCount, Nat.add_comm]

theorem encode_ne_nil (i : Instr) : encode i ≠ [] := by
  cases i <;> simp [encode]

end Sys2Proof
end

