-- ==== Sys2Proof/Laws/State.lean ====
section
/-! SUPPORT. One lemma per field of each record operation, so that no later proof unfolds an update. -/

namespace Sys2Proof.Machine

variable (s : State) (a : Agent) (p : Packer) (u : Unpacker) (c : Cfg) (k n : Nat) (regs : Regs) (r : Response)

/-! ### The machine -/

@[simp] theorem State.setAgent_agents : (s.setAgent k a).agents = s.agents.set k a := rfl
@[simp] theorem State.setAgent_host : (s.setAgent k a).host = s.host := rfl
@[simp] theorem State.passTurn_agents : s.passTurn.agents = s.agents := rfl
@[simp] theorem State.passTurn_host : s.passTurn.host = s.host.tail := rfl
@[simp] theorem State.complete_agents :
    (s.complete k a n regs r).agents = s.agents.set k (a.respond n regs r) := rfl
@[simp] theorem State.complete_host : (s.complete k a n regs r).host = s.host.tail := rfl
theorem State.reject_eq (e : Status) : s.reject k a n e = s.complete k a n a.regs (.error e) := rfl
@[simp] theorem State.presentWords_host (ws : List Word) : (s.presentWords k ws).host = s.host := rfl
@[simp] theorem State.presentNext_host (ws : List Word) :
    (s.presentNext k ws).host = .command k :: s.host := rfl
@[simp] theorem State.presentNext_agents (ws : List Word) :
    (s.presentNext k ws).agents = s.agents.modify k fun b => { b with cmdPort := ws ++ b.cmdPort } := rfl

/-! ### One instance -/

@[simp] theorem Agent.respond_cfg : (a.respond n regs r).cfg = a.cfg := rfl
@[simp] theorem Agent.respond_regs : (a.respond n regs r).regs = regs := rfl
@[simp] theorem Agent.respond_cmdPort : (a.respond n regs r).cmdPort = a.cmdPort.drop n := rfl
@[simp] theorem Agent.respond_respPort : (a.respond n regs r).respPort = a.respPort ++ [r] := rfl
@[simp] theorem Agent.resetInput_cfg : a.resetInput.cfg = a.cfg := rfl
@[simp] theorem Agent.resetInput_regs : a.resetInput.regs = Regs.reset a.cfg a.kind := rfl
@[simp] theorem Agent.resetInput_cmdPort : a.resetInput.cmdPort = a.cmdPort := rfl
@[simp] theorem Agent.resetInput_respPort : a.resetInput.respPort = a.respPort := rfl
@[simp] theorem Agent.construct_cfg (kind : UnitKind) : (Agent.construct kind c).cfg = c := rfl
@[simp] theorem Agent.construct_regs (kind : UnitKind) : (Agent.construct kind c).regs = Regs.reset c kind := rfl
@[simp] theorem Agent.construct_cmdPort (kind : UnitKind) : (Agent.construct kind c).cmdPort = [] := rfl
@[simp] theorem Agent.construct_respPort (kind : UnitKind) : (Agent.construct kind c).respPort = [] := rfl

/-! ### The registers -/

@[simp] theorem Packer.reset_acc : (Packer.reset c).acc = 0 := rfl
@[simp] theorem Packer.reset_slot : (Packer.reset c).slot = c.sw := rfl
@[simp] theorem Packer.reset_pend : (Packer.reset c).pend = [] := rfl
@[simp] theorem Unpacker.reset_src : (Unpacker.reset c).src = [] := rfl
@[simp] theorem Unpacker.reset_idx : (Unpacker.reset c).idx = 0 := rfl
@[simp] theorem Unpacker.reset_res : (Unpacker.reset c).res = c.sw := rfl
@[simp] theorem Unpacker.reset_avail : (Unpacker.reset c).avail = 0 := rfl
@[simp] theorem Packer.pendAppend_acc (x : SymWord) : (p.pendAppend x).acc = p.acc := rfl
@[simp] theorem Packer.pendAppend_slot (x : SymWord) : (p.pendAppend x).slot = p.slot := rfl
@[simp] theorem Packer.pendAppend_pend (x : SymWord) : (p.pendAppend x).pend = p.pend ++ [x] := rfl
@[simp] theorem Packer.fillSymbol_acc (v m : Nat) : (p.fillSymbol c v m).acc = 0 := rfl
@[simp] theorem Packer.fillSymbol_slot (v m : Nat) : (p.fillSymbol c v m).slot = c.sw := rfl
@[simp] theorem Packer.fillSymbol_pend (v m : Nat) :
    (p.fillSymbol c v m).pend =
      p.pend ++ [encodeSymbol c (p.acc ||| (v >>> (m - p.slot)) % 2 ^ p.slot)] := rfl
@[simp] theorem Packer.placeTail_pend (v m : Nat) : (p.placeTail v m).pend = p.pend := by
  unfold Packer.placeTail; split <;> rfl
@[simp] theorem Unpacker.loaded_src (input : List SymWord) : (Unpacker.loaded c input).src = input := rfl
@[simp] theorem Unpacker.loaded_idx (input : List SymWord) : (Unpacker.loaded c input).idx = 0 := rfl
@[simp] theorem Unpacker.loaded_res (input : List SymWord) : (Unpacker.loaded c input).res = c.sw := rfl
@[simp] theorem Unpacker.loaded_avail (input : List SymWord) :
    (Unpacker.loaded c input).avail = input.length * c.sw := rfl
@[simp] theorem Unpacker.seek_src (m : Nat) : (u.seek c m).src = u.src := rfl
@[simp] theorem Unpacker.seek_idx (m : Nat) : (u.seek c m).idx = m / c.sw := rfl
@[simp] theorem Unpacker.seek_res (m : Nat) : (u.seek c m).res = c.sw - m % c.sw := rfl
@[simp] theorem Unpacker.seek_avail (m : Nat) :
    (u.seek c m).avail = availOf c u.len (m / c.sw) (c.sw - m % c.sw) := rfl
@[simp] theorem Unpacker.advance_src : (u.advance c).src = u.src := by
  unfold Unpacker.advance; split <;> rfl
@[simp] theorem Unpacker.advance_avail : (u.advance c).avail = u.avail := by
  unfold Unpacker.advance; split <;> rfl

/-! ### Responses -/

@[simp] theorem Response.okay_status : Response.okay.status = .ok := rfl
@[simp] theorem Response.value_status (v : Nat) : (Response.value v).status = .ok := rfl
@[simp] theorem Response.value_null (v : Nat) : (Response.value v).null = false := rfl
@[simp] theorem Response.value_result (v : Nat) : (Response.value v).result = BitVec.ofNat 32 v := rfl
@[simp] theorem Response.value_out (v : Nat) : (Response.value v).out = [] := rfl
@[simp] theorem Response.nullAnswer_status : Response.nullAnswer.status = .ok := rfl
@[simp] theorem Response.nullAnswer_null : Response.nullAnswer.null = true := rfl
@[simp] theorem Response.symbols_status (out : List SymWord) : (Response.symbols out).status = .ok := rfl
@[simp] theorem Response.symbols_out (out : List SymWord) : (Response.symbols out).out = out := rfl
@[simp] theorem Response.error_status (e : Status) : (Response.error e).status = e := rfl
@[simp] theorem Response.error_out (e : Status) : (Response.error e).out = [] := rfl
@[simp] theorem Response.error_null (e : Status) : (Response.error e).null = false := rfl
@[simp] theorem Response.error_result (e : Status) : (Response.error e).result = 0 := rfl

end Sys2Proof.Machine
end

