-- ==== Sys2Proof/Laws/Ops.lean ====
section
/-! SUPPORT. What each shared operation can do, said once: on which instance a command runs, what the
operation answers for each kind of unit, and from an answer `next t` back to the case it came from. -/

namespace Sys2Proof.Machine

variable {s t : State} {a : Agent} {p : Packer} {u : Unpacker} {k n j : Nat}

/-! ### The active instance -/

theorem State.active_eq_some :
    s.active = some (k, a) ↔ (∃ rest, s.host = .command k :: rest) ∧ s.agents[k]? = some a := by
  unfold State.active
  split
  · next k' rest h =>
    simp only [Option.map_eq_some_iff, Prod.mk.injEq, List.cons.injEq, HostAct.command.injEq, h]
    constructor
    · rintro ⟨b, hb, rfl, rfl⟩; exact ⟨⟨rest, rfl, rfl⟩, hb⟩
    · rintro ⟨⟨r, rfl, _⟩, hb⟩; exact ⟨a, hb, rfl, rfl⟩
  · next h => simp [h]
  · next h => simp [h]

theorem State.active_agent (h : s.active = some (k, a)) : s.agents[k]? = some a :=
  (State.active_eq_some.1 h).2

theorem State.active_lt (h : s.active = some (k, a)) : k < s.agents.length :=
  (List.getElem?_eq_some_iff.1 (State.active_agent h)).1

/-! ### Completing a command -/

theorem State.complete_self (h : s.active = some (k, a)) (regs : Regs) (r : Response) :
    (s.complete k a n regs r).agents[k]? = some (a.respond n regs r) := by
  simp [State.active_lt h]

theorem State.complete_other (hj : j ≠ k) (regs : Regs) (r : Response) :
    (s.complete k a n regs r).agents[j]? = s.agents[j]? := by
  simp [List.getElem?_set_ne hj.symm]

theorem State.complete_length (regs : Regs) (r : Response) :
    (s.complete k a n regs r).agents.length = s.agents.length := by simp

/-! ### Running an operation on the active instance -/

theorem State.onPacker_packer (hs : s.active = some (k, a)) (ha : ConfigOK a.cfg)
    (hr : a.regs = .packer p) (op : Cfg → Packer → UnitResult Packer) :
    s.onPacker n op = s.finish k a n .packer (op a.cfg p) := by
  simp only [State.onPacker, hs, if_pos ha, hr]

theorem State.onPacker_unpacker (hs : s.active = some (k, a)) (ha : ConfigOK a.cfg)
    (hr : a.regs = .unpacker u) (op : Cfg → Packer → UnitResult Packer) :
    s.onPacker n op = .next (s.reject k a 1 .eIllegal) := by
  simp only [State.onPacker, hs, if_pos ha, hr]

theorem State.onUnpacker_unpacker (hs : s.active = some (k, a)) (ha : ConfigOK a.cfg)
    (hr : a.regs = .unpacker u) (op : Cfg → Unpacker → UnitResult Unpacker) :
    s.onUnpacker n op = s.finish k a n .unpacker (op a.cfg u) := by
  simp only [State.onUnpacker, hs, if_pos ha, hr]

theorem State.onUnpacker_packer (hs : s.active = some (k, a)) (ha : ConfigOK a.cfg)
    (hr : a.regs = .packer p) (op : Cfg → Unpacker → UnitResult Unpacker) :
    s.onUnpacker n op = .next (s.reject k a 1 .eIllegal) := by
  simp only [State.onUnpacker, hs, if_pos ha, hr]

/-- The ways a command can end in a next state: done, or rejected. -/
theorem State.finish_next {σ : Type} {toRegs : σ → Regs} {res : UnitResult σ}
    (h : s.finish k a n toRegs res = .next t) :
    (∃ x r, res = .done x r ∧ t = s.complete k a n (toRegs x) r) ∨
      (∃ e, res = .rejected e ∧ t = s.reject k a n e) := by
  cases res with
  | done x r => exact .inl ⟨x, r, rfl, (Host.Outcome.next.inj h).symm⟩
  | rejected e => exact .inr ⟨e, rfl, (Host.Outcome.next.inj h).symm⟩
  | stopped f => cases h

/-- What a PACKER's operation that answers a next state has done. -/
theorem State.onPacker_next {op : Cfg → Packer → UnitResult Packer} (h : s.onPacker n op = .next t) :
    ∃ k a, s.active = some (k, a) ∧ ConfigOK a.cfg ∧
      ((∃ p x r, a.regs = .packer p ∧ op a.cfg p = .done x r ∧ t = s.complete k a n (.packer x) r) ∨
       (∃ p e, a.regs = .packer p ∧ op a.cfg p = .rejected e ∧ t = s.reject k a n e) ∨
       (∃ u, a.regs = .unpacker u ∧ t = s.reject k a 1 .eIllegal)) := by
  unfold State.onPacker at h
  split at h
  · cases h
  · next k a hs =>
    split at h
    · next ha =>
      refine ⟨k, a, hs, ha, ?_⟩
      split at h
      · next p hp =>
        obtain ⟨x, r, hx, rfl⟩ | ⟨e, he, rfl⟩ := State.finish_next h
        · exact .inl ⟨p, x, r, hp, hx, rfl⟩
        · exact .inr (.inl ⟨p, e, hp, he, rfl⟩)
      · next u hu => exact .inr (.inr ⟨u, hu, (Host.Outcome.next.inj h).symm⟩)
    · cases h

/-- What an UNPACKER's operation that answers a next state has done. -/
theorem State.onUnpacker_next {op : Cfg → Unpacker → UnitResult Unpacker}
    (h : s.onUnpacker n op = .next t) :
    ∃ k a, s.active = some (k, a) ∧ ConfigOK a.cfg ∧
      ((∃ u x r, a.regs = .unpacker u ∧ op a.cfg u = .done x r ∧ t = s.complete k a n (.unpacker x) r) ∨
       (∃ u e, a.regs = .unpacker u ∧ op a.cfg u = .rejected e ∧ t = s.reject k a n e) ∨
       (∃ p, a.regs = .packer p ∧ t = s.reject k a 1 .eIllegal)) := by
  unfold State.onUnpacker at h
  split at h
  · cases h
  · next k a hs =>
    split at h
    · next ha =>
      refine ⟨k, a, hs, ha, ?_⟩
      split at h
      · next p hp => exact .inr (.inr ⟨p, hp, (Host.Outcome.next.inj h).symm⟩)
      · next u hu =>
        obtain ⟨x, r, hx, rfl⟩ | ⟨e, he, rfl⟩ := State.finish_next h
        · exact .inl ⟨u, x, r, hu, hx, rfl⟩
        · exact .inr (.inl ⟨u, e, hu, he, rfl⟩)
    · cases h

/-- Whatever the command, a next state is the active instance completing a command. -/
theorem exec_next {i : Instr} (h : exec i s = .next t) :
    ∃ k a n regs r, s.active = some (k, a) ∧ ConfigOK a.cfg ∧ t = s.complete k a n regs r := by
  cases i with
  | push value width =>
    obtain ⟨k, a, hs, ha, ⟨_, x, r, _, _, rfl⟩ | ⟨_, e, _, _, rfl⟩ | ⟨_, _, rfl⟩⟩ := State.onPacker_next h <;>
      exact ⟨k, a, _, _, _, hs, ha, rfl⟩
  | flush =>
    obtain ⟨k, a, hs, ha, ⟨_, x, r, _, _, rfl⟩ | ⟨_, e, _, _, rfl⟩ | ⟨_, _, rfl⟩⟩ := State.onPacker_next h <;>
      exact ⟨k, a, _, _, _, hs, ha, rfl⟩
  | load input =>
    obtain ⟨k, a, hs, ha, ⟨_, x, r, _, _, rfl⟩ | ⟨_, e, _, _, rfl⟩ | ⟨_, _, rfl⟩⟩ := State.onUnpacker_next h <;>
      exact ⟨k, a, _, _, _, hs, ha, rfl⟩
  | pop width =>
    obtain ⟨k, a, hs, ha, ⟨_, x, r, _, _, rfl⟩ | ⟨_, e, _, _, rfl⟩ | ⟨_, _, rfl⟩⟩ := State.onUnpacker_next h <;>
      exact ⟨k, a, _, _, _, hs, ha, rfl⟩
  | offset skip =>
    obtain ⟨k, a, hs, ha, ⟨_, x, r, _, _, rfl⟩ | ⟨_, e, _, _, rfl⟩ | ⟨_, _, rfl⟩⟩ := State.onUnpacker_next h <;>
      exact ⟨k, a, _, _, _, hs, ha, rfl⟩

/-! ### A step -/

/-- The ways a step can end in a next state. -/
theorem step_next (h : step s = .next t) :
    (s.fetch = .idle ∧ t = s) ∨
    (∃ k a, s.fetch = .resetInput k a ∧ t = (s.setAgent k a.resetInput).passTurn) ∨
    (s.fetch = .waiting ∧ t = s.passTurn) ∨
    (∃ k a, s.fetch = .illegal k a ∧ t = s.reject k a 1 .eIllegal) ∨
    (∃ i, s.fetch = .instr i ∧ exec i s = .next t) := by
  unfold step at h
  split at h
  · next hf => exact .inl ⟨hf, (Host.Outcome.next.inj h).symm⟩
  · cases h
  · cases h
  · next k a hf => exact .inr (.inl ⟨k, a, hf, (Host.Outcome.next.inj h).symm⟩)
  · next hf => exact .inr (.inr (.inl ⟨hf, (Host.Outcome.next.inj h).symm⟩))
  · next k a hf => exact .inr (.inr (.inr (.inl ⟨k, a, hf, (Host.Outcome.next.inj h).symm⟩)))
  · next i hf => exact .inr (.inr (.inr (.inr ⟨i, hf, h⟩)))

/-- What a fetch on the next host act finds, said through the active instance: a command act. -/
theorem State.fetch_command (hs : s.active = some (k, a)) (ha : ConfigOK a.cfg) :
    s.fetch = fetchAt k a := by
  obtain ⟨⟨rest, hh⟩, hk⟩ := State.active_eq_some.1 hs
  simp only [State.fetch, hh, HostAct.target, hk, if_pos ha]

/-- A command is fetched only from the active instance's port, whose configuration is well-formed. -/
theorem State.fetch_instr {i : Instr} (h : s.fetch = .instr i) :
    ∃ k a rest, s.active = some (k, a) ∧ ConfigOK a.cfg ∧ decodeAt a.kind a.cmdPort = .instr i rest := by
  unfold State.fetch at h
  split at h
  · cases h
  · next act rest hh =>
    split at h
    · cases h
    · next a hk =>
      split at h
      · next ha =>
        split at h
        · next k =>
          refine ⟨k, a, ?_⟩
          unfold fetchAt at h
          split at h
          · cases h
          · cases h
          · cases h
          · next j ws hd =>
            cases h
            exact ⟨ws, State.active_eq_some.2 ⟨⟨rest, hh⟩, hk⟩, ha, hd⟩
        · cases h
      · cases h

end Sys2Proof.Machine
end

