-- ==== Sys2Proof/Laws/Units.lean ====
section
/-! SUPPORT. One lemma for each check and each operation on a unit's registers: exactly when it ends in
which way, and with what. The provers cite these instead of unfolding the operations. -/

namespace Sys2Proof.Machine

variable {c : Cfg} {p x : Packer} {u y : Unpacker} {r : Response} {e : Status}

/-! ### Checks -/

theorem fits_eq_true {cap : Option Nat} {n : Nat} :
    fits cap n = true ↔ ∀ m, cap = some m → n ≤ m := by
  cases cap <;> simp [fits]

/-- `push` passes all four checks (R100). -/
theorem pushCheck_eq_none {value : Int} {width : Nat} :
    pushCheck c p value width = none ↔
      WidthInRange width ∧ 0 ≤ value ∧ value < 2 ^ width ∧
        fits c.pendCap (p.pend.length + symbolsEmitted c p width) = true := by
  unfold pushCheck
  by_cases h : WidthInRange width
  · rw [if_neg (not_not.2 h)]
    by_cases h1 : value < 0
    · simp only [if_pos h1, reduceCtorEq, false_iff, not_and]; omega
    · rw [if_neg h1]
      by_cases h2 : 2 ^ width ≤ value
      · simp only [if_pos h2, reduceCtorEq, false_iff, not_and]; omega
      · rw [if_neg h2]
        cases fits c.pendCap (p.pend.length + symbolsEmitted c p width)
        · simp
        · simpa using ⟨h, not_lt.1 h1, not_le.1 h2⟩
  · simp only [if_pos h, reduceCtorEq, false_iff]; exact fun h' => h h'.1

theorem popCheck_eq_none {width : Nat} : popCheck width = none ↔ WidthInRange width := by
  unfold popCheck; split
  · next h => exact iff_of_true rfl h
  · next h => exact iff_of_false nofun h

theorem offsetCheck_eq_none {skip : Int} : offsetCheck skip = none ↔ 0 ≤ skip := by
  unfold offsetCheck; split <;> simp_all

/-- No check answers `OK` as a code. -/
theorem pushCheck_ne_ok {value : Int} {width : Nat} : pushCheck c p value width ≠ some .ok := by
  unfold pushCheck; repeat' split
  all_goals simp

theorem loadCheck_ne_ok {input : List SymWord} : loadCheck c input ≠ some .ok := by
  unfold loadCheck; repeat' split
  all_goals simp

theorem popCheck_ne_ok {width : Nat} : popCheck width ≠ some .ok := by
  unfold popCheck; split <;> simp

theorem offsetCheck_ne_ok {skip : Int} : offsetCheck skip ≠ some .ok := by
  unfold offsetCheck; split <;> simp

/-! ### The PACKER's operations -/

theorem Packer.push_eq_done {value : Int} {width : Nat} :
    Packer.push value width c p = .done x r ↔
      pushCheck c p value width = none ∧
        x = p.appendBits c value.toNat (pushFuel width) width ∧ r = .okay := by
  unfold Packer.push
  cases pushCheck c p value width <;> simp [eq_comm]

theorem Packer.push_eq_rejected {value : Int} {width : Nat} :
    Packer.push value width c p = .rejected e ↔ pushCheck c p value width = some e := by
  unfold Packer.push
  cases pushCheck c p value width <;> simp

/-- A `push` only appends to `PEND` (R38, R57). -/
theorem Packer.appendBits_pend (v fuel : Nat) :
    ∀ (m : Nat) (p : Packer), ∃ l, (p.appendBits c v fuel m).pend = p.pend ++ l := by
  induction fuel with
  | zero => exact fun m p => ⟨[], by simp [Packer.appendBits]⟩
  | succ fuel ih =>
    intro m p
    unfold Packer.appendBits
    split
    · obtain ⟨l, hl⟩ := ih (m - p.slot) (p.fillSymbol c v m)
      exact ⟨_, by rw [hl, Packer.fillSymbol_pend, List.append_assoc]⟩
    · exact ⟨[], by simp⟩

theorem Packer.flush_eq_done :
    Packer.flush c p = .done x r ↔ x = Packer.reset c ∧ r = .symbols (p.flushed c) := by
  simp [Packer.flush, eq_comm]

theorem Packer.flush_ne_rejected : Packer.flush c p ≠ .rejected e := by simp [Packer.flush]

/-! ### The UNPACKER's operations -/

theorem Unpacker.load_eq_done {input : List SymWord} :
    Unpacker.load input c u = .done y r ↔
      loadCheck c input = none ∧ y = Unpacker.loaded c input ∧ r = .okay := by
  unfold Unpacker.load
  cases loadCheck c input <;> simp [eq_comm]

theorem Unpacker.load_eq_rejected {input : List SymWord} :
    Unpacker.load input c u = .rejected e ↔ loadCheck c input = some e := by
  unfold Unpacker.load
  cases loadCheck c input <;> simp

/-- A `pop` that is done answered null from an exhausted UNPACKER, or extracted (R121, R122). -/
theorem Unpacker.pop_eq_done {width : Nat} :
    Unpacker.pop width c u = .done y r ↔
      WidthInRange width ∧
        ((u.avail = 0 ∧ y = u ∧ r = .nullAnswer) ∨
         (0 < u.avail ∧ ∃ v, r = .value v ∧
            Unpacker.extract c (popFuel (min width u.avail)) (min width u.avail) 0
              { u with avail := u.avail - min width u.avail } = .ok (y, v))) := by
  unfold Unpacker.pop
  rw [← popCheck_eq_none]
  cases hc : popCheck width with
  | some e => simp
  | none =>
    by_cases hx : u.avail = 0
    · simp [Unpacker.exhausted, hx, eq_comm]
    · simp only [Unpacker.exhausted, beq_iff_eq, hx, if_false, true_and, false_and, false_or,
        Nat.pos_of_ne_zero hx]
      cases Unpacker.extract c (popFuel (min width u.avail)) (min width u.avail) 0
        { u with avail := u.avail - min width u.avail } with
      | error f => simp
      | ok z =>
        obtain ⟨z, v⟩ := z
        constructor
        · intro h; cases h; exact ⟨v, rfl, rfl⟩
        · rintro ⟨w, rfl, h⟩; cases h; rfl

theorem Unpacker.pop_eq_rejected {width : Nat} :
    Unpacker.pop width c u = .rejected e ↔ popCheck width = some e := by
  unfold Unpacker.pop
  cases popCheck width with
  | some e' => simp
  | none =>
    simp only [reduceCtorEq, iff_false]
    split
    · exact nofun
    · cases Unpacker.extract c (popFuel (min width u.avail)) (min width u.avail) 0
        { u with avail := u.avail - min width u.avail } <;> exact nofun

theorem popCheck_eq_some {width : Nat} :
    popCheck width = some e ↔ e = .eWidthRange ∧ ¬ WidthInRange width := by
  unfold popCheck
  split
  · next h => exact iff_of_false nofun fun h' => h'.2 h
  · next h => simpa [eq_comm] using fun _ => h

/-- Extraction moves the cursor only: `SRC` and `AVAIL` are as they were on entry (R122). -/
theorem Unpacker.extract_src_avail (fuel : Nat) :
    ∀ (need acc : Nat) (u y : Unpacker) (v : Nat),
      Unpacker.extract c fuel need acc u = .ok (y, v) → y.src = u.src ∧ y.avail = u.avail := by
  induction fuel with
  | zero => intro need acc u y v h; cases h; exact ⟨rfl, rfl⟩
  | succ fuel ih =>
    intro need acc u y v h
    unfold Unpacker.extract at h
    split at h
    · cases h; exact ⟨rfl, rfl⟩
    · split at h
      · cases h
      · simpa using ih _ _ _ _ _ h

/-- A `pop` leaves `SRC` as it was (R38). -/
theorem Unpacker.pop_src {width : Nat} (h : Unpacker.pop width c u = .done y r) : y.src = u.src := by
  obtain ⟨-, ⟨-, rfl, -⟩ | ⟨-, v, -, he⟩⟩ := Unpacker.pop_eq_done.1 h
  · rfl
  · exact (Unpacker.extract_src_avail _ _ _ _ _ _ he).1

theorem Unpacker.offset_eq_done {skip : Int} :
    Unpacker.offset skip c u = .done y r ↔ 0 ≤ skip ∧ y = u.seek c skip.toNat ∧ r = .okay := by
  unfold Unpacker.offset offsetCheck
  by_cases h : skip < 0
  · simp [h]
  · simp [h, not_lt.1 h, eq_comm]

theorem Unpacker.offset_eq_rejected {skip : Int} :
    Unpacker.offset skip c u = .rejected e ↔ e = .eSeek ∧ skip < 0 := by
  unfold Unpacker.offset offsetCheck
  by_cases h : skip < 0
  · simp [h, eq_comm]
  · simp [h]

/-! ### `AVAIL` (R30) -/

/-- "the integer before the clamp equals `LEN*SW - skip`" (R126): `AVAIL` after a seek to `pos`. -/
theorem availOf_seek (h : 1 ≤ c.sw) (len pos : Nat) :
    availOf c len (pos / c.sw) (c.sw - pos % c.sw) = len * c.sw - pos := by
  have hm := Nat.mod_lt pos (show 0 < c.sw by omega)
  have hd := Nat.div_add_mod pos c.sw
  unfold availOf
  generalize pos / c.sw = q at hd ⊢
  generalize pos % c.sw = m at hd hm ⊢
  have hc : ((c.sw - m : Nat) : Int) = (c.sw : Int) - m := by omega
  have hi : ((c.sw - m : Nat) : Int) + ((len : Int) - 1 - (q : Int)) * (c.sw : Int)
      = ((len * c.sw : Nat) : Int) - (pos : Int) := by
    rw [hc, ← hd]; push_cast; ring
  rw [hi]; omega

end Sys2Proof.Machine
end

