-- ==== Sys2Proof/Laws/Memory.lean ====
section
/-! SUPPORT. The storages keep their canonical form: each memory operation, and the reset state. -/

namespace Sys2Proof.Machine

variable {s : State} {a : Agent} {p : Packer} {c : Cfg} {k n : Nat}

theorem decodeSymbol_lt {x : SymWord} {v : Nat} (h : decodeSymbol c x = some v) : v < 2 ^ c.sw := by
  unfold decodeSymbol at h
  split at h
  · simpa using (Option.filter_eq_some_iff.1 h).2
  · cases h

/-- What `ENC` gives is of type `Sym` (R5). -/
theorem encodeSymbol_isSymbol (v : Nat) : IsSymbol c (encodeSymbol c v) := by
  unfold IsSymbol encodeSymbol
  exact lt_of_le_of_lt (by simpa using Nat.mod_le _ _) (Nat.mod_lt _ (Nat.two_pow_pos _))

/-- `load` accepts only symbols of the alphabet, within capacity (R120). -/
theorem loadCheck_eq_none {input : List SymWord} :
    loadCheck c input = none ↔
      fits c.srcCap input.length = true ∧ (input.all fun x => (decodeSymbol c x).isSome) = true := by
  unfold loadCheck
  split
  · split <;> simp_all
  · simp_all

/-- `PendAppend` of a mapped symbol, where the queue has room (R57). -/
theorem pendAppend_storageWf (h : (p.pend.all fun x => decide (IsSymbol c x)) = true) (v : Nat) :
    ((p.pendAppend (encodeSymbol c v)).pend.all fun x => decide (IsSymbol c x)) = true := by
  rw [Packer.pendAppend_pend, List.all_append, h]
  simp [encodeSymbol_isSymbol]

/-- Draining the queue, and construction, leave a well-formed storage (R42, R43, R105). -/
theorem reset_storageWf (kind : UnitKind) (h : a.regs = Regs.reset a.cfg kind) : a.storageWf = true := by
  unfold Agent.storageWf
  rw [h]
  cases kind <;> simp [Regs.reset, fits] <;> split <;> simp_all

/-- An accepted `load` leaves a well-formed storage (R120). -/
theorem loaded_storageWf {input : List SymWord} (h : loadCheck a.cfg input = none)
    (hr : a.regs = .unpacker (Unpacker.loaded a.cfg input)) : a.storageWf = true := by
  unfold Agent.storageWf
  rw [hr]
  obtain ⟨h1, h2⟩ := loadCheck_eq_none.1 h
  simp only [Unpacker.loaded_src, h1, h2, Bool.and_true]

theorem Memory.wf_setAgent (h : Memory.wf s = true) (ha : a.storageWf = true) :
    Memory.wf (s.setAgent k a) = true := by
  simp only [Memory.wf, List.all_eq_true, State.setAgent_agents] at h ⊢
  intro b hb
  obtain hb | rfl := List.mem_or_eq_of_mem_set hb
  · exact h b hb
  · exact ha

theorem Memory.wf_passTurn : Memory.wf s.passTurn = Memory.wf s := rfl

/-- A command keeps the storage well-formed if it leaves its own instance's so. -/
theorem Memory.wf_complete {regs : Regs} {r : Response} (h : Memory.wf s = true)
    (ha : (a.respond n regs r).storageWf = true) : Memory.wf (s.complete k a n regs r) = true :=
  Memory.wf_setAgent h ha

theorem respond_storageWf_self {r : Response} : (a.respond n a.regs r).storageWf = a.storageWf := rfl

theorem Memory.wf_agent (h : Memory.wf s = true) (hk : s.agents[k]? = some a) : a.storageWf = true :=
  List.all_eq_true.1 h a (List.mem_of_getElem? hk)

/-- A rejection keeps every storage (R183). -/
theorem Memory.wf_reject {e : Status} (h : Memory.wf s = true) (hs : s.active = some (k, a)) :
    Memory.wf (s.reject k a n e) = true :=
  Memory.wf_complete h (respond_storageWf_self.trans (Memory.wf_agent h (State.active_agent hs)))

theorem Memory.wf_construct (units : List (UnitKind × Cfg)) : Memory.wf (State.construct units) = true := by
  simp only [Memory.wf, State.construct, List.all_map, List.all_eq_true]
  intro u _
  exact reset_storageWf u.1 rfl

theorem Memory.wf_reset : Memory.wf State.reset = true := Memory.wf_construct _

end Sys2Proof.Machine
end

