-- ==== Sys2Proof/Laws/PerInstr.lean ====
section
/-! SUPPORT. Statements made for each command by one lemma per constructor. -/

namespace Sys2Proof.Laws.CommandWord

/-- The command word of the instruction's encoding carries its opcode number (spec/30_encoding.md R72)
and `RSV = 0` (R71), and exactly its symbol words follow (R76). -/
def Statement (i : Instr) : Prop :=
  ∃ cw ws, encode i = cw :: ws ∧ rsvField cw = 0 ∧ ws.length + 1 = i.wordCount ∧
    opField cw =
      match i with
      | .push _ _ => 0
      | .flush => 1
      | .load _ => 2
      | .pop _ => 3
      | .offset _ => 4

theorem push (value : Int) (width : Nat) : Statement (.push value width) :=
  ⟨_, _, rfl, rsvField_header _ _ _, rfl, opField_header _ _ _⟩

theorem flush : Statement .flush :=
  ⟨_, _, rfl, rsvField_header _ _ _, rfl, opField_header _ _ _⟩

theorem load (input : List SymWord) : Statement (.load input) :=
  ⟨_, _, rfl, rsvField_header _ _ _, Nat.add_comm _ _, opField_header _ _ _⟩

theorem pop (width : Nat) : Statement (.pop width) :=
  ⟨_, _, rfl, rsvField_header _ _ _, rfl, opField_header _ _ _⟩

theorem offset (skip : Int) : Statement (.offset skip) :=
  ⟨_, _, rfl, rsvField_header _ _ _, rfl, opField_header _ _ _⟩

end Sys2Proof.Laws.CommandWord
end

