-- ==== Sys2Proof/Laws/Step.lean ====
section
/-! SUPPORT. A step is local: what it does is a function of the host's next act and of the one instance
the act names (spec/20_memory.md R50, R61). -/

namespace Sys2Proof.Machine

variable {s : State} {a : Agent} {k n : Nat}

/-- Putting an instance where it already stands changes nothing. -/
theorem State.set_self {agents : List Agent} (h : agents[k]? = some a) : agents.set k a = agents := by
  apply List.ext_getElem?
  intro j
  by_cases hj : k = j
  · subst hj; rw [List.getElem?_set_self (List.getElem?_eq_some_iff.1 h).1, h]
  · rw [List.getElem?_set_ne hj]

/-- The state after instance `k` has become what an outcome says. -/
def State.settle (s : State) (k : Nat) :
    Host.Outcome Agent Fault Refusal → Host.Outcome State Fault Refusal
  | .next b => .next (s.setAgent k b).passTurn
  | .fault f => .fault f
  | .refused r => .refused r

theorem State.onPacker_local (ha : ConfigOK a.cfg) (op : Cfg → Packer → UnitResult Packer) :
    ∃ f, ∀ s : State, s.active = some (k, a) → s.onPacker n op = s.settle k f := by
  cases hr : a.regs with
  | packer p =>
    cases ho : op a.cfg p with
    | done x r =>
      exact ⟨.next (a.respond n (.packer x) r), fun s hs => by rw [State.onPacker_packer hs ha hr, ho]; rfl⟩
    | rejected e =>
      exact ⟨.next (a.respond n a.regs (.error e)), fun s hs => by rw [State.onPacker_packer hs ha hr, ho]; rfl⟩
    | stopped f => exact ⟨.fault f, fun s hs => by rw [State.onPacker_packer hs ha hr, ho]; rfl⟩
  | unpacker u =>
    exact ⟨.next (a.respond 1 a.regs (.error .eIllegal)), fun s hs => State.onPacker_unpacker hs ha hr op⟩

theorem State.onUnpacker_local (ha : ConfigOK a.cfg) (op : Cfg → Unpacker → UnitResult Unpacker) :
    ∃ f, ∀ s : State, s.active = some (k, a) → s.onUnpacker n op = s.settle k f := by
  cases hr : a.regs with
  | unpacker u =>
    cases ho : op a.cfg u with
    | done x r =>
      exact ⟨.next (a.respond n (.unpacker x) r), fun s hs => by rw [State.onUnpacker_unpacker hs ha hr, ho]; rfl⟩
    | rejected e =>
      exact ⟨.next (a.respond n a.regs (.error e)), fun s hs => by rw [State.onUnpacker_unpacker hs ha hr, ho]; rfl⟩
    | stopped f => exact ⟨.fault f, fun s hs => by rw [State.onUnpacker_unpacker hs ha hr, ho]; rfl⟩
  | packer p =>
    exact ⟨.next (a.respond 1 a.regs (.error .eIllegal)), fun s hs => State.onUnpacker_packer hs ha hr op⟩

/-- What a command does is a function of the active instance. -/
theorem exec_local (i : Instr) (ha : ConfigOK a.cfg) :
    ∃ f, ∀ s : State, s.active = some (k, a) → exec i s = s.settle k f := by
  cases i with
  | push value width => exact State.onPacker_local ha (Packer.push value width)
  | flush => exact State.onPacker_local ha Packer.flush
  | load input => exact State.onUnpacker_local ha (Unpacker.load input)
  | pop width => exact State.onUnpacker_local ha (Unpacker.pop width)
  | offset skip => exact State.onUnpacker_local ha (Unpacker.offset skip)

/-- A port holds no command, an illegal word, or a command: nothing else is fetched at it. -/
theorem fetchAt_cases (k : Nat) (a : Agent) :
    fetchAt k a = .waiting ∨ fetchAt k a = .illegal k a ∨ ∃ i, fetchAt k a = .instr i := by
  unfold fetchAt
  split
  · exact .inl rfl
  · exact .inl rfl
  · exact .inr (.inl rfl)
  · next i _ _ => exact .inr (.inr ⟨i, rfl⟩)

/-- What a step does is a function of the host's next act and the instance it names. -/
theorem step_local (act : HostAct) (b : Option Agent) :
    ∃ f, ∀ (s : State) (rest : List HostAct), s.host = act :: rest → s.agents[act.target]? = b →
      step s = s.settle act.target f := by
  cases b with
  | none => exact ⟨.refused .noSuchAgent, fun s rest hh hk => by simp [step, State.fetch, hh, hk, State.settle]⟩
  | some a =>
    by_cases ha : ConfigOK a.cfg
    · cases act with
      | reset k =>
        refine ⟨.next a.resetInput, fun s rest hh hk => ?_⟩
        simp only [HostAct.target] at hk
        simp only [step, State.fetch, hh, HostAct.target, hk, if_pos ha, State.settle]
      | command k =>
        obtain hd | hd | ⟨i, hd⟩ := fetchAt_cases k a
        · refine ⟨.next a, fun s rest hh hk => ?_⟩
          have hs : s.active = some (k, a) := State.active_eq_some.2 ⟨⟨rest, hh⟩, hk⟩
          simp only [step, State.fetch_command hs ha, hd, State.settle, HostAct.target, State.setAgent,
            State.set_self (State.active_agent hs)]
        · refine ⟨.next (a.respond 1 a.regs (.error .eIllegal)), fun s rest hh hk => ?_⟩
          have hs : s.active = some (k, a) := State.active_eq_some.2 ⟨⟨rest, hh⟩, hk⟩
          simp only [step, State.fetch_command hs ha, hd]
          rfl
        · obtain ⟨f, hf⟩ := exec_local (k := k) i ha
          refine ⟨f, fun s rest hh hk => ?_⟩
          have hs : s.active = some (k, a) := State.active_eq_some.2 ⟨⟨rest, hh⟩, hk⟩
          simp only [step, State.fetch_command hs ha, hd, hf s hs, HostAct.target]
    · exact ⟨.refused .notReady, fun s rest hh hk => by simp [step, State.fetch, hh, hk, ha, State.settle]⟩

end Sys2Proof.Machine
end

