-- ==== Sys2Proof/Tests/Slice0.lean ====
section
/-! SUPPORT. The model's own tests: the well-formedness checks refuse an ill-formed command each, words
written out from spec/95_test_vectors.md decode to what they stand for, one step on small states gives
the vectors' answers, and every obligation with hypotheses has a state and operands that meet them. -/

namespace Sys2Proof.Tests

open Sys2Proof Sys2Proof.Machine

/-! ### Helpers -/

/-- The outcome is a next state with this property. -/
def after (o : Host.Outcome State Fault Refusal) (f : State → Bool) : Bool :=
  match o with
  | .next t => f t
  | .fault _ => false
  | .refused _ => false

theorem next_of_after {o : Host.Outcome State Fault Refusal} {f : State → Bool} (h : after o f = true) :
    ∃ t, o = .next t := by
  cases o with
  | next t => exact ⟨t, rfl⟩
  | fault _ => cases h
  | refused _ => cases h

/-- A PACKER alone, its command presented. -/
def sP (c : Cfg) (p : Packer) (port : List Word) : State :=
  { agents := [{ cfg := c, regs := .packer p, cmdPort := port, respPort := [] }], host := [.command 0] }

/-- An UNPACKER alone, its command presented. -/
def sU (c : Cfg) (u : Unpacker) (port : List Word) : State :=
  { agents := [{ cfg := c, regs := .unpacker u, cmdPort := port, respPort := [] }], host := [.command 0] }

/-- The one instance's registers, last response and waiting words. -/
def shows (regs : Regs) (r : Response) (port : List Word) (t : State) : Bool :=
  t.agents.map Agent.regs == [regs] && t.agents.map Agent.respPort == [[r]] &&
    t.agents.map Agent.cmdPort == [port]

def id6 : Cfg := Cfg.identity 6
def tight6 : Cfg := { Cfg.identity 6 with pendCap := some 1, srcCap := some 2 }
def man : List SymWord := [19, 22, 5, 46]

/-! ### Well-formedness refuses -/

theorem test_wf_push_value_high : (Instr.push (2 ^ 47) 8).wellFormed = false := by decide
theorem test_wf_push_value_low : (Instr.push (-(2 ^ 47) - 1) 8).wellFormed = false := by decide
theorem test_wf_push_width : (Instr.push 0 64).wellFormed = false := by decide
theorem test_wf_pop_width : (Instr.pop 64).wellFormed = false := by decide
theorem test_wf_offset_high : (Instr.offset (2 ^ 47)).wellFormed = false := by decide
theorem test_wf_offset_low : (Instr.offset (-(2 ^ 47) - 1)).wellFormed = false := by decide
theorem test_wf_load_length (l : List SymWord) (h : l.length = 2 ^ 47) :
    (Instr.load l).wellFormed = false := by simp [Instr.wellFormed, h]
theorem test_wf_accepts : (Instr.push (-(2 ^ 47)) 63).wellFormed = true ∧ Instr.flush.wellFormed = true ∧
    (Instr.offset (2 ^ 47 - 1)).wellFormed = true := by decide

/-! ### Words from the spec's encodings (spec/95_test_vectors.md) -/

theorem test_decode_push : decode [0x0F8000007FFFFFFF] = .instr (.push 2147483647 31) [] := by decide
theorem test_decode_flush : decode [0x2000000000000000, 7] = .instr .flush [7] := by decide
theorem test_decode_load : decode [0x4000000000000004, 0x13, 0x16, 0x05, 0x2E] = .instr (.load man) [] := by
  decide
theorem test_decode_load_incomplete : decode [0x4000000000000004, 0x13, 0x16, 0x05] = .incomplete := by decide
theorem test_decode_pop : decode [0x6180000000000000] = .instr (.pop 3) [] := by decide
theorem test_decode_offset : decode [0x80000000000003E8] = .instr (.offset 1000) [] := by decide
theorem test_decode_rsv : decode [0x0001000000000000] = .illegal .reservedField := by decide
theorem test_decode_flush_opnd : decode [0x2000000000000001] = .illegal .operandNotZero := by decide
theorem test_decode_offset_width : decode [0x8080000000000000] = .illegal .widthNotZero := by decide
theorem test_decode_other_unit : decodeAt .packer [0x6400000000000000] = .illegal .otherUnit := by decide
theorem test_table_word : decodeTableWord 64 0x4000000000000002 = some (.load [0, 0]) := by decide

/-! ### One step each (spec/95_test_vectors.md) -/

/-- V-P1, first line: cross-symbol carry. -/
theorem test_push_carry : after (step (sP id6 (Packer.reset id6) [0x040000000000004D]))
    (shows (.packer ⟨16, 4, [19]⟩) .okay []) = true := by decide

/-- V-P5: one push emitting ten symbols. -/
theorem test_push_many : after (step (sP (Cfg.identity 3) (Packer.reset (Cfg.identity 3)) [0x10000000DEADBEEF]))
    (shows (.packer ⟨6, 1, [6, 7, 5, 2, 6, 6, 7, 6, 7, 3]⟩) .okay []) = true := by decide

/-- V-P1 after two pushes: the partial symbol is padded. -/
theorem test_flush_pads : after (step (sP id6 ⟨4, 2, [19, 22]⟩ [0x2000000000000000]))
    (shows (.packer ⟨0, 6, []⟩) (.symbols [19, 22, 4]) []) = true := by decide

/-- V-P2: an exact fill is flushed without a padding symbol. -/
theorem test_flush_exact : after (step (sP id6 ⟨0, 6, [63, 63]⟩ [0x2000000000000000]))
    (shows (.packer ⟨0, 6, []⟩) (.symbols [63, 63]) []) = true := by decide

/-- V-U9: a bad symbol rejects the whole load, its words consumed, the old source kept. -/
theorem test_load_rejects : after (step (sU id6 ⟨[1, 2, 3], 0, 2, 14⟩ [0x4000000000000003, 0x01, 0x40, 0x02, 9]))
    (shows (.unpacker ⟨[1, 2, 3], 0, 2, 14⟩) (.error .eSymbol) [9]) = true := by decide

/-- V-U2: the load. -/
theorem test_load : after (step (sU id6 (Unpacker.reset id6) [0x4000000000000004, 0x13, 0x16, 0x05, 0x2E]))
    (shows (.unpacker ⟨man, 0, 6, 24⟩) .okay []) = true := by decide

/-- V-U3, `k = 5`: a pop over three symbols. -/
theorem test_pop_across : after (step (sU id6 ⟨man, 0, 1, 19⟩ [0x6400000000000000]))
    (shows (.unpacker ⟨man, 2, 5, 11⟩) (.value 172) []) = true := by decide

/-- V-U5: clamped to the last four bits, right-justified, the index past the last symbol. -/
theorem test_pop_clamps : after (step (sU id6 ⟨man, 3, 4, 4⟩ [0x7000000000000000]))
    (shows (.unpacker ⟨man, 4, 6, 0⟩) (.value 14) []) = true := by decide

/-- V-U3, `k = 1000`: past the end, as computed. -/
theorem test_offset_past_end : after (step (sU id6 ⟨man, 0, 6, 24⟩ [0x80000000000003E8]))
    (shows (.unpacker ⟨man, 166, 2, 0⟩) .okay []) = true := by decide

/-- V-U9: a negative seek. -/
theorem test_offset_negative : after (step (sU id6 ⟨man, 1, 4, 16⟩ [0x8000FFFFFFFFFFFF]))
    (shows (.unpacker ⟨man, 1, 4, 16⟩) (.error .eSeek) []) = true := by decide

/-- V-U10: a symbol word with a bit at `SYM_BITS` fails the load whatever `DEC` is. -/
theorem test_symbol_bits : decodeSymbol { Cfg.identity 6 with symBits := 8, dec := .table [(0x141, 1)] } 0x141 = none := by
  decide

/-- The first command after reset runs at the unit that takes it. -/
theorem test_first_after_reset : after (step (State.reset.withFetchWord 64 0x6400000000000000))
    (fun t => t.agents.map Agent.respPort == [[], [.nullAnswer]]) = true := by decide

/-- The `STATUS` numbers of spec/60_exceptions.md R181, and the count before the symbols (30_encoding.md R78). -/
theorem test_status_numbers :
    [Status.ok, .eUnsigned, .eWidthSmall, .eSymbol, .eSeek, .eWidthRange, .eIllegal, .eCapacity, .eConfig].map
      (fun e => e.code.toNat) = [0, 1, 2, 3, 4, 5, 6, 7, 8] ∧ (Response.symbols man).outCount = 4 := by decide

/-- A line of spec/95_test_vectors.md program P1, and the pseudo-instruction of P3 step 10. -/
theorem test_assemble :
    assembleLine ['U', ':', ' ', 'l', 'o', 'a', 'd', ' ', '[', '1', '9', ',', ' ', '0', 'x', '1', '6', ']'] =
      some (.load [19, 22]) ∧
    assembleLine ['U', ':', ' ', 'o', 'f', 'f', 's', 'e', 't'] = some (.offset 0) := by decide

/-! ### The hypotheses of every obligation can be met -/

theorem witness_DecodeOfEncode : (Instr.push (-(2 ^ 47)) 63).wellFormed = true ∧
    (Instr.load [0xFFFFFFFFFFFFFFFF]).wellFormed = true ∧ (Instr.pop 63).wellFormed = true ∧
    (Instr.offset (2 ^ 47 - 1)).wellFormed = true ∧ Instr.flush.wellFormed = true := by decide

theorem witness_EncodeOfDecode : decode [0x4000000000000001, 5, 0x2000000000000000] =
    .instr (.load [5]) [0x2000000000000000] := by decide

theorem witness_OpcodeRowsDisjoint : ∃ r ∈ opRows, r.selects 0x2000000000000000 = true := by decide

theorem witness_LegalWordsAreTheRows : (∃ h, decodeHeader 0x0000FFFFFFFFFFFF = .ok h) ∧
    (∃ h, decodeHeader 0x40007FFFFFFFFFFF = .ok h) := ⟨⟨.push (-1) 0, by decide⟩, ⟨.load (2 ^ 47 - 1), by decide⟩⟩

/-- An active instance, well-configured, with this at its port. -/
abbrev Presented (s : State) (a : Agent) : Prop := s.active = some (0, a) ∧ ConfigOK a.cfg

theorem witness_IllegalEncodingsRejected :
    (∀ cw ∈ ([0xA000000000000000, 0x6400000000000000, 0x0001000000000000, 0x2080000000000000,
        0x2000000000000001] : List Word),
      Presented (sP id6 (Packer.reset id6) [cw]) ⟨id6, .packer (Packer.reset id6), [cw], []⟩) ∧
    (∀ cw ∈ ([0x0400000000000001, 0x4000FFFFFFFFFFFF, 0x8080000000000000, 0x6000000000000001,
        0x4000000000000001, 0x7000000000000000] : List Word),
      Presented (sU id6 (Unpacker.reset id6) [cw]) ⟨id6, .unpacker (Unpacker.reset id6), [cw], []⟩) := by
  constructor <;> simp only [List.forall_mem_cons, List.not_mem_nil, false_implies, implies_true, and_true] <;> decide

theorem witness_StepRunsDecodedCommand :
    Presented (sP id6 (Packer.reset id6) [0x040000000000004D, 5]) ⟨id6, .packer (Packer.reset id6), [0x040000000000004D, 5], []⟩ ∧
    decode [0x040000000000004D, 5] = .instr (.push 77 8) [5] := by decide

theorem witness_NothingPresentedNothingHappens :
    State.reset.host = [] ∧
    Presented (sP id6 (Packer.reset id6) []) ⟨id6, .packer (Packer.reset id6), [], []⟩ ∧
    Presented (sU id6 (Unpacker.reset id6) [0x4000000000000002, 1]) ⟨id6, .unpacker (Unpacker.reset id6), [0x4000000000000002, 1], []⟩ ∧
    decode [0x4000000000000002, 1] = .incomplete := by decide

theorem witness_ResetInputReconstructs :
    let s : State := { sP id6 ⟨16, 4, [19]⟩ [] with host := [.reset 0] }
    s.host = [.reset 0] ∧ s.agents[0]? = some ⟨id6, .packer ⟨16, 4, [19]⟩, [], []⟩ ∧ ConfigOK id6 := by decide

theorem witness_OneResponsePerCommand :
    (∃ t, exec (.push 7 3) (sP id6 (Packer.reset id6) []) = .next t) ∧
    ∃ t, exec (.load [1, 2]) (sP id6 (Packer.reset id6) []) = .next t :=
  ⟨next_of_after (f := fun _ => true) (by decide), next_of_after (f := fun _ => true) (by decide)⟩

/-- A PACKER with its queue at its capacity. -/
theorem witness_PushRejections :
    Presented (sP tight6 ⟨16, 4, [19]⟩ []) ⟨tight6, .packer ⟨16, 4, [19]⟩, [], []⟩ ∧
    ¬ (1 ≤ 0 ∧ 0 ≤ 32) ∧ ¬ (1 ≤ 33 ∧ 33 ≤ 32) ∧ (-1 : Int) < 0 ∧ (2 : Int) ^ 32 ≤ 4294967296 ∧
    ((0 : Int) ≤ 15 ∧ (15 : Int) < 2 ^ 4 ∧ tight6.pendCap = some 1 ∧ 1 < [19].length + (6 - 4 + 4) / 6) := by
  decide

/-- The room is used up exactly; the widest push at the widest symbol. -/
theorem witness_PushAppendsClosedForm :
    (Presented (sP tight6 ⟨16, 4, []⟩ []) ⟨tight6, .packer ⟨16, 4, []⟩, [], []⟩ ∧
      Packer.Inv tight6 ⟨16, 4, []⟩ ∧ (15 : Int) < 2 ^ 4 ∧ 0 + (6 - 4 + 4) / 6 ≤ 1) ∧
    (Presented (sP (Cfg.identity 32) ⟨0, 32, []⟩ []) ⟨Cfg.identity 32, .packer ⟨0, 32, []⟩, [], []⟩ ∧
      Packer.Inv (Cfg.identity 32) ⟨0, 32, []⟩ ∧ (4294967295 : Int) < 2 ^ 32) := by decide

theorem witness_PushFrame :
    (sP id6 ⟨16, 4, [19]⟩ []).active = some (0, ⟨id6, .packer ⟨16, 4, [19]⟩, [], []⟩) ∧
    (∃ t, exec (.push 97 8) (sP id6 ⟨16, 4, [19]⟩ []) = .next t) ∧
    (sU id6 ⟨man, 0, 6, 24⟩ []).active = some (0, ⟨id6, .unpacker ⟨man, 0, 6, 24⟩, [], []⟩) ∧
    ∃ t, exec (.push 97 8) (sU id6 ⟨man, 0, 6, 24⟩ []) = .next t :=
  ⟨by decide, next_of_after (f := fun _ => true) (by decide), by decide, next_of_after (f := fun _ => true) (by decide)⟩

theorem witness_FlushReturnsAndResets :
    Presented (sP id6 ⟨16, 4, [19]⟩ []) ⟨id6, .packer ⟨16, 4, [19]⟩, [], []⟩ ∧
    Presented (sP id6 ⟨0, 6, [19]⟩ []) ⟨id6, .packer ⟨0, 6, [19]⟩, [], []⟩ := by decide

theorem witness_FlushFrame :
    (∃ t, exec .flush (sP id6 ⟨16, 4, [19]⟩ []) = .next t) ∧ ∃ t, exec .flush (sU id6 ⟨man, 0, 6, 24⟩ []) = .next t :=
  ⟨next_of_after (f := fun _ => true) (by decide), next_of_after (f := fun _ => true) (by decide)⟩

/-- An instance standing in a machine, with a well-formed configuration: what the laws over sequences of
commands assume. -/
abbrev Standing (s : State) (k : Nat) (a : Agent) : Prop := s.agents[k]? = some a ∧ ConfigOK a.cfg

theorem witness_FlushTwiceIsEmpty :
    Standing (sP id6 ⟨0, 6, [19]⟩ []) 0 ⟨id6, .packer ⟨0, 6, [19]⟩, [], []⟩ := by decide

theorem witness_PaddingLaw :
    (ConfigOK id6 ∧ Packer.Inv id6 ⟨56, 3, []⟩ ∧ 3 ≠ id6.sw) ∧
    (Standing State.reset 0 ⟨Cfg.identity 6, .packer (Packer.reset (Cfg.identity 6)), [], []⟩ ∧
      (∀ x ∈ [(255, 8), (1, 5)], 1 ≤ x.2 ∧ x.2 ≤ 32 ∧ x.1 < 2 ^ x.2) ∧
      totalWidth [(255, 8), (1, 5)] % id6.sw = 1 ∧ fits id6.pendCap (13 / 6) = true) := by decide

theorem witness_LoadReplacesSource :
    Presented (sU tight6 (Unpacker.reset tight6) []) ⟨tight6, .unpacker (Unpacker.reset tight6), [], []⟩ ∧
    tight6.srcCap = some 2 ∧ [(0 : SymWord), 63].length ≤ 2 ∧
    decodeSymbol tight6 0 = some 0 ∧ decodeSymbol tight6 63 = some 63 := by decide

theorem witness_LoadRejections :
    Presented (sU tight6 (Unpacker.reset tight6) []) ⟨tight6, .unpacker (Unpacker.reset tight6), [], []⟩ ∧
    (tight6.srcCap = some 2 ∧ 2 < [(0 : SymWord), 0, 64].length) ∧
    ([(0 : SymWord), 64].length ≤ 2 ∧ decodeSymbol tight6 64 = none) ∧
    2 ^ tight6.symBits ≤ (0x100000000 : SymWord).toNat := by decide

theorem witness_LoadFrame :
    (∃ t, exec (.load man) (sU id6 (Unpacker.reset id6) []) = .next t) ∧
    (∃ t, exec (.load [64]) (sU id6 ⟨man, 0, 6, 24⟩ []) = .next t) ∧
    ∃ t, exec (.load man) (sP id6 (Packer.reset id6) []) = .next t :=
  ⟨next_of_after (f := fun _ => true) (by decide), next_of_after (f := fun _ => true) (by decide),
    next_of_after (f := fun _ => true) (by decide)⟩

theorem witness_PopRejectionAndNull :
    Presented (sU id6 ⟨man, 4, 6, 0⟩ []) ⟨id6, .unpacker ⟨man, 4, 6, 0⟩, [], []⟩ ∧
    ¬ (1 ≤ 0 ∧ 0 ≤ 32) ∧ ¬ (1 ≤ 33 ∧ 33 ≤ 32) ∧ (Unpacker.mk man 4 6 0).avail = 0 := by decide

theorem witness_PopReadsTheStream :
    (Presented (sU id6 ⟨man, 3, 1, 1⟩ []) ⟨id6, .unpacker ⟨man, 3, 1, 1⟩, [], []⟩ ∧
      Unpacker.Inv id6 ⟨man, 3, 1, 1⟩) ∧
    (Presented (sU id6 ⟨man, 166, 2, 0⟩ []) ⟨id6, .unpacker ⟨man, 166, 2, 0⟩, [], []⟩ ∧
      Unpacker.Inv id6 ⟨man, 166, 2, 0⟩) := by decide

theorem witness_OffsetSeeks :
    Presented (sU id6 ⟨man, 0, 6, 24⟩ []) ⟨id6, .unpacker ⟨man, 0, 6, 24⟩, [], []⟩ ∧
    (-1 : Int) < 0 ∧ (0 : Int) ≤ 0 ∧ (0 : Int) ≤ 2 ^ 47 - 1 := by decide

theorem witness_CursorCommandsFrame :
    (sU id6 ⟨man, 0, 6, 24⟩ []).active = some (0, ⟨id6, .unpacker ⟨man, 0, 6, 24⟩, [], []⟩) ∧
    (∃ t, exec (.pop 8) (sU id6 ⟨man, 0, 6, 24⟩ []) = .next t) ∧
    (∃ t, exec (.offset 8) (sU id6 ⟨man, 0, 6, 24⟩ []) = .next t) ∧
    ∃ t, exec (.pop 8) (sP id6 ⟨16, 4, [19]⟩ []) = .next t :=
  ⟨by decide, next_of_after (f := fun _ => true) (by decide), next_of_after (f := fun _ => true) (by decide),
    next_of_after (f := fun _ => true) (by decide)⟩

theorem witness_OtherUnitsCommandIllegal :
    Presented (sP id6 ⟨16, 4, [19]⟩ []) ⟨id6, .packer ⟨16, 4, [19]⟩, [], []⟩ ∧
    (Instr.load man).kind ≠ .packer ∧
    Presented (sU id6 ⟨man, 0, 6, 24⟩ []) ⟨id6, .unpacker ⟨man, 0, 6, 24⟩, [], []⟩ ∧
    Instr.flush.kind ≠ .unpacker := by decide

theorem witness_CodesOfEachCommand :
    (sP id6 ⟨16, 4, [19]⟩ []).active = some (0, ⟨id6, .packer ⟨16, 4, [19]⟩, [], []⟩) ∧
    ∃ t, exec (.push 256 8) (sP id6 ⟨16, 4, [19]⟩ []) = .next t :=
  ⟨by decide, next_of_after (f := fun _ => true) (by decide)⟩

/-- V-P10: `push -1, 0` is rejected. -/
theorem witness_RejectionWritesNoState :
    let s := sP id6 ⟨16, 4, [19]⟩ [0x0000FFFFFFFFFFFF]
    let t := s.reject 0 ⟨id6, .packer ⟨16, 4, [19]⟩, [0x0000FFFFFFFFFFFF], []⟩ 1 .eWidthRange
    s.active = some (0, ⟨id6, .packer ⟨16, 4, [19]⟩, [0x0000FFFFFFFFFFFF], []⟩) ∧
    after (step s) (fun x => decide (x = t)) = true ∧
    t.agents[0]? = some ⟨id6, .packer ⟨16, 4, [19]⟩, [], [.error .eWidthRange]⟩ ∧
    (Response.error .eWidthRange).status ≠ .ok := by decide

theorem witness_EveryCommandCompletes :
    (sU id6 ⟨man, 3, 1, 1⟩ []).active = some (0, ⟨id6, .unpacker ⟨man, 3, 1, 1⟩, [], []⟩) ∧
    Agent.Inv ⟨id6, .unpacker ⟨man, 3, 1, 1⟩, [], []⟩ := by decide

theorem witness_ConstructionResetsRegisters :
    [(UnitKind.packer, id6), (UnitKind.unpacker, Cfg.identity 32)][0]? = some (.packer, id6) ∧
    [(UnitKind.packer, id6), (UnitKind.unpacker, Cfg.identity 32)][1]? = some (.unpacker, Cfg.identity 32) := by
  decide

theorem witness_InvariantAtReset :
    ∀ x ∈ [(UnitKind.packer, Cfg.identity 1), (UnitKind.unpacker, Cfg.identity 32)], ConfigOK x.2 := by decide

theorem witness_StepKeepsInvariant :
    (sU id6 ⟨man, 3, 4, 4⟩ [0x7000000000000000]).Inv ∧
    ∃ t, step (sU id6 ⟨man, 3, 4, 4⟩ [0x7000000000000000]) = .next t :=
  ⟨by decide, next_of_after (f := fun _ => true) (by decide)⟩

theorem witness_SafeMachineNeverStops : (sP tight6 ⟨16, 4, [19]⟩ [0x040000000000004D]).Inv := by decide

theorem witness_NullPopPreservesState :
    let s := sU id6 ⟨man, 4, 6, 0⟩ []
    s.active = some (0, ⟨id6, .unpacker ⟨man, 4, 6, 0⟩, [], []⟩) ∧
    after (exec (.pop 8) s) (fun t =>
      decide (t.agents[0]? = some ⟨id6, .unpacker ⟨man, 4, 6, 0⟩, [], [.nullAnswer]⟩)) = true ∧
    Response.nullAnswer.null = true := by decide

theorem witness_CursorIsThePosition : ConfigOK id6 ∧ Unpacker.Inv id6 ⟨man, 4, 5, 0⟩ := by decide

theorem witness_ConfigurationFixed : ∃ t, step (sP id6 ⟨16, 4, [19]⟩ [0x2000000000000000]) = .next t :=
  next_of_after (f := fun _ => true) (by decide)

theorem witness_OnlyLoadWritesSource :
    (after (step (sU id6 ⟨[1], 0, 6, 6⟩ [0x4000000000000001, 2])) (fun t =>
      decide (t.agents[0]? = some ⟨id6, .unpacker ⟨[2], 0, 6, 6⟩, [], [.okay]⟩)) = true ∧ [2] ≠ [1]) ∧
    (after (step { sU id6 ⟨[1], 0, 6, 6⟩ [] with host := [.reset 0] }) (fun t =>
      decide (t.agents[0]? = some ⟨id6, .unpacker ⟨[], 0, 6, 0⟩, [], []⟩)) = true ∧ [] ≠ [1]) := by decide

theorem witness_OperationsThatReset :
    Standing (sP id6 ⟨16, 4, [19]⟩ []) 0 ⟨id6, .packer ⟨16, 4, [19]⟩, [], []⟩ ∧
    Standing (sU id6 ⟨man, 3, 1, 1⟩ []) 0 ⟨id6, .unpacker ⟨man, 3, 1, 1⟩, [], []⟩ := by decide

theorem witness_MemReadIsSlice :
    ConfigOK id6 ∧ (man.all fun x => (decodeSymbol id6 x).isSome) = true ∧ 20 + 4 ≤ man.length * id6.sw := by decide

theorem witness_PackerStreamLaw :
    Standing State.reset 0 ⟨id6, .packer (Packer.reset id6), [], []⟩ ∧
    ∀ x ∈ [((77 : Int), 8), (256, 8), (-1, 8), (0, 33)], (Instr.push x.1 x.2).wellFormed = true := by decide

theorem witness_SplitLaw :
    Standing (sU id6 ⟨man, 0, 3, 21⟩ []) 0 ⟨id6, .unpacker ⟨man, 0, 3, 21⟩, [], []⟩ ∧
    Unpacker.Inv id6 ⟨man, 0, 3, 21⟩ ∧ 1 + 20 ≤ 32 ∧ 1 + 20 ≤ (Unpacker.mk man 0 3 21).avail := by decide

theorem witness_ClampingLaw :
    Standing (sU id6 ⟨man, 3, 4, 4⟩ []) 0 ⟨id6, .unpacker ⟨man, 3, 4, 4⟩, [], []⟩ ∧
    Unpacker.Inv id6 ⟨man, 3, 4, 4⟩ ∧ 0 < 4 ∧ 4 < 5 ∧ 5 ≤ 32 ∧ ∀ w ∈ [1, 32], 1 ≤ w ∧ w ≤ 32 := by decide

theorem witness_SeekLaw :
    Standing (sU id6 ⟨man, 3, 4, 4⟩ []) 0 ⟨id6, .unpacker ⟨man, 3, 4, 4⟩, [], []⟩ ∧
    Unpacker.Inv id6 ⟨man, 3, 4, 4⟩ ∧ (∀ w ∈ [1, 4], 1 ≤ w ∧ w ≤ 32) ∧ (∀ w ∈ [20, 4], 1 ≤ w ∧ w ≤ 32) ∧
    [1, 4].sum = min 5 (man.length * id6.sw) ∧ [20, 4].sum = min 25 (man.length * id6.sw) ∧
    man.length * id6.sw < 25 := by decide

theorem witness_BoundaryLaw :
    Standing State.reset 1 ⟨id6, .unpacker (Unpacker.reset id6), [], []⟩ ∧
    Standing (sU id6 ⟨man, 0, 6, 24⟩ []) 0 ⟨id6, .unpacker ⟨man, 0, 6, 24⟩, [], []⟩ ∧
    man.length * id6.sw ≤ 24 ∧ 24 < 2 ^ 47 := by decide

theorem identity_mappingInverse : MappingInverse id6 id6 := by
  unfold MappingInverse; decide

theorem witness_RoundTrip :
    Standing State.reset 0 ⟨id6, .packer (Packer.reset id6), [], []⟩ ∧
    Standing State.reset 1 ⟨id6, .unpacker (Unpacker.reset id6), [], []⟩ ∧ MappingInverse id6 id6 ∧
    (∀ x ∈ [(0xFFFFFFFF, 32), (1, 1), (0, 3)], 1 ≤ x.2 ∧ x.2 ≤ 32 ∧ x.1 < 2 ^ x.2) ∧
    fits id6.pendCap (36 / 6) = true ∧ fits id6.srcCap ((36 + 6 - 1) / 6) = true :=
  ⟨by decide, by decide, identity_mappingInverse, by decide, by decide, by decide⟩

theorem witness_FlushAtBoundaryTransparent :
    Standing State.reset 0 ⟨id6, .packer (Packer.reset id6), [], []⟩ ∧ id6.pendCap = none ∧
    (∀ x ∈ [(7, 3), (5, 3)] ++ [(77, 8)], 1 ≤ x.2 ∧ x.2 ≤ 32 ∧ x.1 < 2 ^ x.2) ∧
    totalWidth [(7, 3), (5, 3)] % id6.sw = 0 := by decide

/-- Two instances with a command presented to each. -/
def twoPresented : State :=
  { agents := [⟨id6, .packer (Packer.reset id6), [0x040000000000004D], []⟩,
      ⟨id6, .unpacker ⟨man, 0, 6, 24⟩, [0x8000000000000008], []⟩]
    host := [.command 0, .command 1] }

theorem witness_InterleavingIrrelevant :
    (HostAct.command 0).target ≠ (HostAct.command 1).target ∧
    after (step twoPresented) (fun m => after (step m) (fun t =>
      t.agents.map Agent.respPort == [[.okay], [.okay]] && t.agents.map Agent.cmdPort == [[], []])) = true := by
  decide

theorem witness_InstancesShareNothing :
    State.reset.agents[(HostAct.reset 1).target]? =
      (State.construct [(.packer, Cfg.identity 3), (.unpacker, id6)]).agents[(HostAct.reset 1).target]? ∧
    ∃ t, step { State.reset with host := [.reset 1] } = .next t :=
  ⟨by decide, next_of_after (f := fun _ => true) (by decide)⟩

theorem witness_EmitFsmIsPush :
    ConfigOK tight6 ∧ Packer.Inv tight6 ⟨16, 4, [19]⟩ ∧
    Packer.push 15 4 tight6 ⟨16, 4, [19]⟩ = .rejected .eCapacity ∧
    Packer.push 1 1 tight6 ⟨16, 4, [19]⟩ = .done ⟨24, 3, [19]⟩ .okay := by decide

theorem witness_ExtractFsmIsPop :
    ConfigOK id6 ∧ Unpacker.Inv id6 ⟨man, 3, 4, 4⟩ ∧
    Unpacker.pop 33 id6 ⟨man, 3, 4, 4⟩ = .rejected .eWidthRange ∧
    Unpacker.pop 32 id6 ⟨man, 3, 4, 4⟩ = .done ⟨man, 4, 6, 0⟩ (.value 14) := by decide

theorem witness_AdapterSendsOnlyCarried :
    adapt (.push (.int 77) none) = .send (.push 77 8) ∧
    adapt (.offset (some (.int (2 ^ 47 - 1)))) = .send (.offset (2 ^ 47 - 1)) ∧
    adapt (.offset (some (.int (2 ^ 47)))) = .unsaid ∧
    adapt (.push .notAnInteger (some (.int 64))) = .failed .eWidthRange ∧ InOpndRange (-(2 ^ 47)) ∧ (63 : Int) < 64 := by decide

theorem witness_PseudoInstructions : InOpndRange (2 ^ 47 - 1) := by decide

end Sys2Proof.Tests
end

/-! SUPPORT. What no step changes: the configuration and the kind of every instance and the number of
instances (spec/00_scope.md R5, spec/10_state.md R40). -/

namespace Sys2Proof.Machine

variable {s t : State} {a : Agent} {p : Packer} {u : Unpacker} {k n : Nat}

/-! ### The kind of an instance -/

theorem Agent.kind_of_packer (h : a.regs = .packer p) : a.kind = .packer := by
  simp only [Agent.kind, h]

theorem Agent.kind_of_unpacker (h : a.regs = .unpacker u) : a.kind = .unpacker := by
  simp only [Agent.kind, h]

@[simp] theorem Agent.respond_kind_same (r : Response) : (a.respond n a.regs r).kind = a.kind := rfl

theorem Agent.kind_of_reset {c : Cfg} {kind : UnitKind} (h : a.regs = Regs.reset c kind) :
    a.kind = kind := by
  cases kind with
  | packer => exact Agent.kind_of_packer h
  | unpacker => exact Agent.kind_of_unpacker h

@[simp] theorem Agent.resetInput_kind : a.resetInput.kind = a.kind :=
  Agent.kind_of_reset a.resetInput_regs

/-! ### What a fetch says of the instance it names -/

/-- The ways a fetch can end, with what holds of the instance in each. -/
theorem State.fetch_cases (s : State) :
    s.fetch = .idle ∨ s.fetch = .noSuchAgent ∨ s.fetch = .notReady ∨
    (∃ k a, s.active = some (k, a) ∧ ConfigOK a.cfg ∧ s.fetch = fetchAt k a) ∨
    (∃ k a rest, s.host = .reset k :: rest ∧ s.agents[k]? = some a ∧ ConfigOK a.cfg ∧
      s.fetch = .resetInput k a) := by
  cases hh : s.host with
  | nil => exact .inl (by simp only [State.fetch, hh])
  | cons act rest =>
    cases hk : s.agents[act.target]? with
    | none => exact .inr (.inl (by simp only [State.fetch, hh, hk]))
    | some a =>
      by_cases ha : ConfigOK a.cfg
      · cases act with
        | command k =>
          have hs : s.active = some (k, a) := State.active_eq_some.2 ⟨⟨rest, hh⟩, hk⟩
          exact .inr (.inr (.inr (.inl ⟨k, a, hs, ha, State.fetch_command hs ha⟩)))
        | reset k =>
          exact .inr (.inr (.inr (.inr
            ⟨k, a, rest, rfl, hk, ha, by simp only [State.fetch, hh, hk, if_pos ha]⟩)))
      · exact .inr (.inr (.inl (by simp only [State.fetch, hh, hk, if_neg ha])))

/-- A reset input is fetched for the instance the host names, whose configuration is well-formed. -/
theorem State.fetch_resetInput (h : s.fetch = .resetInput k a) :
    (∃ rest, s.host = .reset k :: rest) ∧ s.agents[k]? = some a ∧ ConfigOK a.cfg := by
  obtain hf | hf | hf | ⟨j, b, _, _, hf⟩ | ⟨j, b, rest, hh, hk, ha, hf⟩ := s.fetch_cases <;> rw [hf] at h
  · cases h
  · cases h
  · cases h
  · obtain hw | hw | ⟨i, hw⟩ := fetchAt_cases j b <;> rw [hw] at h <;> cases h
  · cases h
    exact ⟨⟨rest, hh⟩, hk, ha⟩

/-- An illegal encoding is fetched only from the active instance's port, whose configuration is
well-formed. -/
theorem State.fetch_illegal (h : s.fetch = .illegal k a) : s.active = some (k, a) ∧ ConfigOK a.cfg := by
  obtain hf | hf | hf | ⟨j, b, hs, ha, hf⟩ | ⟨j, b, _, _, _, _, hf⟩ := s.fetch_cases <;> rw [hf] at h
  · cases h
  · cases h
  · cases h
  · obtain hw | hw | ⟨i, hw⟩ := fetchAt_cases j b <;> rw [hw] at h <;> cases h
    exact ⟨hs, ha⟩
  · cases h

/-! ### One instance replaced by one of the same configuration and kind -/

/-- `t` has the instances of `s`, or all of them but one, in whose place stands one of the same
configuration and kind. -/
def State.SameUnits (s t : State) : Prop :=
  t.agents = s.agents ∨
  ∃ k a b, s.agents[k]? = some a ∧ t.agents = s.agents.set k b ∧ b.cfg = a.cfg ∧ b.kind = a.kind

/-- Replacing an element by one with the same image under `f` leaves the list of images as it is. -/
theorem map_set_of_map_eq {α β : Type} {l : List α} {f : α → β} {i : Nat} {x y : α}
    (hx : l[i]? = some x) (hy : f y = f x) : (l.set i y).map f = l.map f := by
  obtain ⟨hi, rfl⟩ := List.getElem?_eq_some_iff.1 hx
  rw [List.map_set, hy, ← List.getElem_map f (h := by rwa [List.length_map]), List.set_getElem_self]

theorem State.SameUnits.map_eq (h : s.SameUnits t) :
    t.agents.map Agent.cfg = s.agents.map Agent.cfg ∧ t.agents.map Agent.kind = s.agents.map Agent.kind := by
  obtain hst | ⟨k, a, b, hk, hst, hcfg, hkind⟩ := h <;> rw [hst]
  · exact ⟨rfl, rfl⟩
  · exact ⟨map_set_of_map_eq hk hcfg, map_set_of_map_eq hk hkind⟩

/-- A completed command keeps the units where its new registers are those of the same kind of unit. -/
theorem State.sameUnits_complete {regs : Regs} {r : Response} (hk : s.agents[k]? = some a)
    (hkind : (a.respond n regs r).kind = a.kind) : s.SameUnits (s.complete k a n regs r) :=
  .inr ⟨k, a, _, hk, rfl, rfl, hkind⟩

theorem State.sameUnits_reject (e : Status) (hk : s.agents[k]? = some a) :
    s.SameUnits (s.reject k a n e) :=
  State.sameUnits_complete hk (Agent.respond_kind_same _)

theorem State.onPacker_sameUnits {op : Cfg → Packer → UnitResult Packer}
    (h : s.onPacker n op = .next t) : s.SameUnits t := by
  obtain ⟨k, a, hs, -, ⟨p, x, r, hp, -, rfl⟩ | ⟨_, e, _, _, rfl⟩ | ⟨_, _, rfl⟩⟩ := State.onPacker_next h
  · exact State.sameUnits_complete (State.active_agent hs) (Agent.kind_of_packer hp).symm
  · exact State.sameUnits_reject e (State.active_agent hs)
  · exact State.sameUnits_reject .eIllegal (State.active_agent hs)

theorem State.onUnpacker_sameUnits {op : Cfg → Unpacker → UnitResult Unpacker}
    (h : s.onUnpacker n op = .next t) : s.SameUnits t := by
  obtain ⟨k, a, hs, -, ⟨u, x, r, hu, -, rfl⟩ | ⟨_, e, _, _, rfl⟩ | ⟨_, _, rfl⟩⟩ := State.onUnpacker_next h
  · exact State.sameUnits_complete (State.active_agent hs) (Agent.kind_of_unpacker hu).symm
  · exact State.sameUnits_reject e (State.active_agent hs)
  · exact State.sameUnits_reject .eIllegal (State.active_agent hs)

theorem exec_sameUnits {i : Instr} (h : exec i s = .next t) : s.SameUnits t := by
  cases i with
  | push value width => exact State.onPacker_sameUnits h
  | flush => exact State.onPacker_sameUnits h
  | load input => exact State.onUnpacker_sameUnits h
  | pop width => exact State.onUnpacker_sameUnits h
  | offset skip => exact State.onUnpacker_sameUnits h

theorem step_sameUnits (h : step s = .next t) : s.SameUnits t := by
  obtain ⟨_, rfl⟩ | ⟨k, a, hf, rfl⟩ | ⟨_, rfl⟩ | ⟨k, a, hf, rfl⟩ | ⟨i, _, hi⟩ := step_next h
  · exact .inl rfl
  · obtain ⟨_, hk, _⟩ := State.fetch_resetInput hf
    exact .inr ⟨k, a, a.resetInput, hk, rfl, Agent.resetInput_cfg a, Agent.resetInput_kind⟩
  · exact .inl rfl
  · exact State.sameUnits_reject .eIllegal (State.active_agent (State.fetch_illegal hf).1)
  · exact exec_sameUnits hi

/-- Settles O35: a step leaves every instance as it is, or replaces one by an instance of the same
configuration and kind. -/
theorem configurationFixed : Obligations.ConfigurationFixed := by
  unfold Obligations.ConfigurationFixed
  intro s t h
  exact (step_sameUnits h).map_eq

end Sys2Proof.Machine

/-! SUPPORT. What a command that answers a next state has done to its instance, said once for each kind of
unit, and from it the frames of the five commands (spec/10_state.md R38, R40; spec/60_exceptions.md R183,
R196). -/

namespace Sys2Proof.Machine

variable {s t : State} {a b : Agent} {p : Packer} {u u' : Unpacker} {c : Cfg} {k n : Nat} {i : Instr}
  {regs : Regs} {r : Response} {e : Status}

/-! ### What a command does to its instance -/

/-- An operation on a unit's registers `x` ended with registers `regs` and response `r`: done with these
two, or rejected with the registers as they were (R183). -/
def UnitResult.EndsIn {σ : Type} (res : UnitResult σ) (toRegs : σ → Regs) (x : σ) (regs : Regs)
    (r : Response) : Prop :=
  (∃ y, res = .done y r ∧ regs = toRegs y) ∨ (∃ e, res = .rejected e ∧ regs = toRegs x ∧ r = .error e)

/-- What a PACKER's operation that answers a next state did to the active instance. -/
theorem State.onPacker_effect {op : Cfg → Packer → UnitResult Packer} (h : s.onPacker n op = .next t)
    (hs : s.active = some (k, a)) :
    ∃ regs r, t = s.complete k a (if .packer = a.kind then n else 1) regs r ∧
      (∀ u, a.regs = .unpacker u → regs = .unpacker u ∧ r = .error .eIllegal) ∧
      (∀ p, a.regs = .packer p → (op a.cfg p).EndsIn .packer p regs r) := by
  obtain ⟨k', a', hs', -, hcases⟩ := State.onPacker_next h
  obtain ⟨rfl, rfl⟩ := Prod.mk.inj (Option.some.inj (hs.symm.trans hs'))
  obtain ⟨p, x, r, hp, hx, rfl⟩ | ⟨p, e, hp, he, rfl⟩ | ⟨u, hu, rfl⟩ := hcases
  · refine ⟨.packer x, r, by rw [Agent.kind_of_packer hp, if_pos rfl], by simp [hp], fun q hq => ?_⟩
    cases hp.symm.trans hq
    exact .inl ⟨x, hx, rfl⟩
  · refine ⟨a.regs, .error e, by rw [Agent.kind_of_packer hp, if_pos rfl, State.reject_eq], by simp [hp],
      fun q hq => ?_⟩
    cases hp.symm.trans hq
    exact .inr ⟨e, he, hp, rfl⟩
  · exact ⟨a.regs, .error .eIllegal, by simp [Agent.kind_of_unpacker hu, State.reject_eq],
      fun v hv => ⟨hv, rfl⟩, by simp [hu]⟩

/-- What an UNPACKER's operation that answers a next state did to the active instance. -/
theorem State.onUnpacker_effect {op : Cfg → Unpacker → UnitResult Unpacker}
    (h : s.onUnpacker n op = .next t) (hs : s.active = some (k, a)) :
    ∃ regs r, t = s.complete k a (if .unpacker = a.kind then n else 1) regs r ∧
      (∀ p, a.regs = .packer p → regs = .packer p ∧ r = .error .eIllegal) ∧
      (∀ u, a.regs = .unpacker u → (op a.cfg u).EndsIn .unpacker u regs r) := by
  obtain ⟨k', a', hs', -, hcases⟩ := State.onUnpacker_next h
  obtain ⟨rfl, rfl⟩ := Prod.mk.inj (Option.some.inj (hs.symm.trans hs'))
  obtain ⟨u, x, r, hu, hx, rfl⟩ | ⟨u, e, hu, he, rfl⟩ | ⟨p, hp, rfl⟩ := hcases
  · refine ⟨.unpacker x, r, by rw [Agent.kind_of_unpacker hu, if_pos rfl], by simp [hu], fun v hv => ?_⟩
    cases hu.symm.trans hv
    exact .inl ⟨x, hx, rfl⟩
  · refine ⟨a.regs, .error e, by rw [Agent.kind_of_unpacker hu, if_pos rfl, State.reject_eq], by simp [hu],
      fun v hv => ?_⟩
    cases hu.symm.trans hv
    exact .inr ⟨e, he, hu, rfl⟩
  · exact ⟨a.regs, .error .eIllegal, by simp [Agent.kind_of_packer hp, State.reject_eq],
      fun q hq => ⟨hq, rfl⟩, by simp [hp]⟩

/-- A command that answers a next state completes on the active instance and takes its own words, or one
word where the unit is of the other kind (R76, R79). -/
theorem exec_completes (h : exec i s = .next t) :
    ∃ k a regs r, s.active = some (k, a) ∧
      t = s.complete k a (if i.kind = a.kind then i.wordCount else 1) regs r := by
  obtain ⟨k, a, _, _, _, hs, _, _⟩ := exec_next h
  refine ⟨k, a, ?_⟩
  cases i with
  | push value width =>
    obtain ⟨regs, r, ht, _⟩ := State.onPacker_effect h hs
    exact ⟨regs, r, hs, ht⟩
  | flush =>
    obtain ⟨regs, r, ht, _⟩ := State.onPacker_effect h hs
    exact ⟨regs, r, hs, ht⟩
  | load input =>
    obtain ⟨regs, r, ht, _⟩ := State.onUnpacker_effect h hs
    exact ⟨regs, r, hs, ht⟩
  | pop width =>
    obtain ⟨regs, r, ht, _⟩ := State.onUnpacker_effect h hs
    exact ⟨regs, r, hs, ht⟩
  | offset skip =>
    obtain ⟨regs, r, ht, _⟩ := State.onUnpacker_effect h hs
    exact ⟨regs, r, hs, ht⟩

/-- Settles O10: the next state is the active instance completing the command, with the words it takes
named by `exec_completes`. -/
theorem oneResponsePerCommand : Obligations.OneResponsePerCommand := by
  unfold Obligations.OneResponsePerCommand
  intro i s t h
  obtain ⟨k, a, regs, r, hs, rfl⟩ := exec_completes h
  exact ⟨k, a, _, r, hs, State.complete_self hs regs r, rfl, rfl, rfl,
    fun j hj => State.complete_other hj regs r, State.complete_length regs r, rfl⟩

/-! ### The frames of the commands -/

/-- What every completed command of `n` words leaves unchanged outside the registers of its instance. -/
theorem State.complete_frame (hs : s.active = some (k, a)) {f : Agent → Prop}
    (hf : f (a.respond n regs r)) :
    (∀ j, j ≠ k → (s.complete k a n regs r).agents[j]? = s.agents[j]?) ∧
    (s.complete k a n regs r).host = s.host.tail ∧
    ∃ a', (s.complete k a n regs r).agents[k]? = some a' ∧ f a' :=
  ⟨fun _ hj => State.complete_other hj regs r, rfl, _, State.complete_self hs regs r, hf⟩

/-- Settles O13: the frame of a completed command, and `appendBits` only appends to `PEND`. -/
theorem pushFrame : Obligations.PushFrame := by
  unfold Obligations.PushFrame
  intro s t k a value width h hs
  obtain ⟨regs, r, rfl, hu, hp⟩ := State.onPacker_effect h hs
  rw [ite_self]
  refine State.complete_frame hs ⟨rfl, rfl, ⟨r, rfl⟩, fun u h' => (hu u h').1, fun p h' => ?_⟩
  obtain ⟨x, hx, rfl⟩ | ⟨e, _, rfl, _⟩ := hp p h'
  · obtain ⟨_, rfl, _⟩ := Packer.push_eq_done.1 hx
    obtain ⟨l, hl⟩ := Packer.appendBits_pend (c := a.cfg) value.toNat (pushFuel width) width p
    exact ⟨_, rfl, fun j hj => by rw [hl, List.getElem?_append_left hj]⟩
  · exact ⟨p, rfl, fun _ _ => rfl⟩

/-- Settles O15: the frame of a completed command, and `flush` is always done, with the registers of
reset. -/
theorem flushFrame : Obligations.FlushFrame := by
  unfold Obligations.FlushFrame
  intro s t k a h hs
  obtain ⟨regs, r, rfl, hu, hp⟩ := State.onPacker_effect h hs
  rw [ite_self]
  refine State.complete_frame hs ⟨rfl, rfl, ⟨r, rfl⟩, fun u h' => (hu u h').1, fun p h' => ?_⟩
  obtain ⟨x, hx, rfl⟩ | ⟨e, he, _⟩ := hp p h'
  · rw [(Packer.flush_eq_done.1 hx).1, Agent.respond_regs]
  · exact absurd he Packer.flush_ne_rejected

/-- Settles O20: the frame of a completed command; an accepted `load` leaves its input as the source, and
a rejected one keeps the registers. -/
theorem loadFrame : Obligations.LoadFrame := by
  unfold Obligations.LoadFrame
  intro s t k a input h hs
  obtain ⟨regs, r, rfl, hp, hu⟩ := State.onUnpacker_effect h hs
  refine ⟨fun j hj => State.complete_other hj regs r, rfl, _, r, State.complete_self hs regs r, rfl, rfl,
    fun p h' => ⟨(hp p h').1, by simp [Agent.kind_of_packer h']⟩,
    fun u h' => ⟨by simp [Agent.kind_of_unpacker h', Instr.wordCount], ?_⟩⟩
  obtain ⟨x, hx, rfl⟩ | ⟨e, he, rfl, rfl⟩ := hu u h'
  · obtain ⟨_, rfl, rfl⟩ := Unpacker.load_eq_done.1 hx
    exact ⟨fun hne => absurd rfl hne, fun _ => ⟨_, rfl, rfl⟩⟩
  · refine ⟨fun _ => rfl, fun hok => ?_⟩
    cases (show e = .ok from hok)
    exact absurd (Unpacker.load_eq_rejected.1 he) loadCheck_ne_ok

/-- An operation that ends keeps `SRC` where it does so when it is done. -/
theorem UnitResult.EndsIn.src_eq {res : UnitResult Unpacker} (h : res.EndsIn .unpacker u regs r)
    (hdone : ∀ y r, res = .done y r → y.src = u.src) : ∃ y, regs = .unpacker y ∧ y.src = u.src := by
  obtain ⟨y, hy, rfl⟩ | ⟨_, _, rfl, _⟩ := h
  · exact ⟨y, rfl, hdone y r hy⟩
  · exact ⟨u, rfl, rfl⟩

/-- An `offset` leaves `SRC` as it was (R38). -/
theorem Unpacker.offset_src {skip : Int} (h : Unpacker.offset skip c u = .done u' r) : u'.src = u.src := by
  obtain ⟨_, rfl, _⟩ := Unpacker.offset_eq_done.1 h
  exact Unpacker.seek_src u c _

/-- The frame of an UNPACKER's operation of one word that keeps `SRC`. -/
theorem State.onUnpacker_frame {op : Cfg → Unpacker → UnitResult Unpacker}
    (hop : ∀ c u y r, op c u = .done y r → y.src = u.src)
    (h : s.onUnpacker 1 op = .next t) (hs : s.active = some (k, a)) :
    (∀ j, j ≠ k → t.agents[j]? = s.agents[j]?) ∧ t.host = s.host.tail ∧
    ∃ a', t.agents[k]? = some a' ∧ a'.cfg = a.cfg ∧ a'.cmdPort = a.cmdPort.drop 1 ∧
      (∃ r, a'.respPort = a.respPort ++ [r]) ∧
      (∀ p, a.regs = .packer p → a'.regs = .packer p) ∧
      (∀ u, a.regs = .unpacker u → ∃ u', a'.regs = .unpacker u' ∧ u'.src = u.src ∧
        ∀ b, streamBit a'.cfg u'.src b = streamBit a.cfg u.src b) := by
  obtain ⟨regs, r, rfl, hp, hu⟩ := State.onUnpacker_effect h hs
  rw [ite_self]
  refine State.complete_frame hs ⟨rfl, rfl, ⟨r, rfl⟩, fun p h' => (hp p h').1, fun u h' => ?_⟩
  obtain ⟨y, hy, hsrc⟩ := (hu u h').src_eq (hop a.cfg u)
  exact ⟨y, hy, hsrc, fun b => by rw [hsrc, Agent.respond_cfg]⟩

/-- Settles O24: `pop` and `offset` are operations of one word that keep `SRC`. -/
theorem cursorCommandsFrame : Obligations.CursorCommandsFrame := by
  unfold Obligations.CursorCommandsFrame
  rintro s t k a i (⟨width, rfl⟩ | ⟨skip, rfl⟩) h hs
  · exact State.onUnpacker_frame (op := Unpacker.pop width) (fun _ _ _ _ => Unpacker.pop_src) h hs
  · exact State.onUnpacker_frame (op := Unpacker.offset skip) (fun _ _ _ _ => Unpacker.offset_src) h hs

/-! ### A null `pop` -/

/-- A `pop` that ends with a null answer ends with the registers it began with (R121 step 2, R183). -/
theorem Unpacker.regs_of_pop_null {width : Nat} (h : (Unpacker.pop width c u).EndsIn .unpacker u regs r)
    (hnull : r.null = true) : regs = .unpacker u := by
  obtain ⟨y, hy, rfl⟩ | ⟨_, _, rfl, _⟩ := h
  · obtain ⟨_, ⟨_, rfl, _⟩ | ⟨_, v, rfl, _⟩⟩ := Unpacker.pop_eq_done.1 hy
    · rfl
    · cases hnull
  · rfl

/-- Settles O33: a PACKER keeps its registers, an UNPACKER by `Unpacker.regs_of_pop_null`. -/
theorem nullPopPreservesState : Obligations.NullPopPreservesState := by
  unfold Obligations.NullPopPreservesState
  intro s t k a a' r width hs h ha' hr hnull
  obtain ⟨regs, r', rfl, hp, hu⟩ := State.onUnpacker_effect h hs
  cases (State.complete_self hs regs r').symm.trans ha'
  obtain rfl : r' = r := by simpa using hr
  cases hregs : a.regs with
  | packer p => exact (hp p hregs).1
  | unpacker u => exact Unpacker.regs_of_pop_null (hu u hregs) hnull

/-! ### Who writes a source -/

/-- A PACKER's operation leaves an UNPACKER it is sent to as it was (R87). -/
theorem State.onPacker_unpacker_same {op : Cfg → Packer → UnitResult Packer} (h : s.onPacker n op = .next t)
    (hs : s.active = some (k, a)) (hb : t.agents[k]? = some b) (hu : a.regs = .unpacker u)
    (hu' : b.regs = .unpacker u') : u' = u := by
  obtain ⟨regs, r, rfl, hsame, _⟩ := State.onPacker_effect h hs
  cases (State.complete_self hs regs r).symm.trans hb
  exact Regs.unpacker.inj (hu'.symm.trans (hsame u hu).1)

/-- An UNPACKER's operation that keeps `SRC` leaves the source of the active instance as it was. -/
theorem State.onUnpacker_src {op : Cfg → Unpacker → UnitResult Unpacker}
    (hop : ∀ c u y r, op c u = .done y r → y.src = u.src) (h : s.onUnpacker 1 op = .next t)
    (hs : s.active = some (k, a)) (hb : t.agents[k]? = some b) (hu : a.regs = .unpacker u)
    (hu' : b.regs = .unpacker u') : u'.src = u.src := by
  obtain ⟨_, _, b', hb', _, _, _, _, hsrc⟩ := State.onUnpacker_frame hop h hs
  cases hb'.symm.trans hb
  obtain ⟨v, hv, hsame, _⟩ := hsrc u hu
  cases hv.symm.trans hu'
  exact hsame

/-- A `load` keeps the source, or its input is the new source. -/
theorem execLoad_src {input : List SymWord} (h : exec (.load input) s = .next t)
    (hs : s.active = some (k, a)) (hb : t.agents[k]? = some b) (hu : a.regs = .unpacker u)
    (hu' : b.regs = .unpacker u') : u'.src = u.src ∨ u'.src = input := by
  obtain ⟨_, _, b', r, hb', _, _, _, hload⟩ := loadFrame s t k a input h hs
  cases hb'.symm.trans hb
  obtain ⟨_, hrejected, hdone⟩ := hload u hu
  by_cases hr : r.status = .ok
  · obtain ⟨v, hv, hsrc⟩ := hdone hr
    cases hv.symm.trans hu'
    exact .inr hsrc
  · cases (hrejected hr).symm.trans hu'
    exact .inl rfl

/-- A command keeps the source of the UNPACKER it runs on, or is the `load` of the new source (R26,
R51). -/
theorem exec_src (h : exec i s = .next t) (hs : s.active = some (k, a)) (hb : t.agents[k]? = some b)
    (hu : a.regs = .unpacker u) (hu' : b.regs = .unpacker u') : u'.src = u.src ∨ i = .load u'.src := by
  cases i with
  | push value width => exact .inl (congrArg _ (State.onPacker_unpacker_same h hs hb hu hu'))
  | flush => exact .inl (congrArg _ (State.onPacker_unpacker_same h hs hb hu hu'))
  | load input => exact (execLoad_src h hs hb hu hu').imp_right fun hsrc => by rw [hsrc]
  | pop width =>
    exact .inl (State.onUnpacker_src (op := Unpacker.pop width) (fun _ _ _ _ => Unpacker.pop_src)
      h hs hb hu hu')
  | offset skip =>
    exact .inl (State.onUnpacker_src (op := Unpacker.offset skip) (fun _ _ _ _ => Unpacker.offset_src)
      h hs hb hu hu')

/-- A command that decodes at a port of some kind of unit decodes there whatever the unit. -/
theorem decode_of_decodeAt {kind : UnitKind} {ws rest : List Word} (h : decodeAt kind ws = .instr i rest) :
    decode ws = .instr i rest := by
  unfold decodeAt at h
  split at h
  · cases h
  · split at h
    · cases h
    · split at h
      · exact h
      · cases h

/-- After `x` is put in place `k`, what stands in place `j` is `x` or what stood there before. -/
theorem State.getElem?_set_cases {j : Nat} {x : Agent} (hj : s.agents[j]? = some a)
    (hb : (s.agents.set k x)[j]? = some b) : (j = k ∧ b = x) ∨ b = a := by
  rw [List.getElem?_set] at hb
  split at hb
  · next hkj =>
    split at hb
    · exact .inl ⟨hkj.symm, (Option.some.inj hb).symm⟩
    · cases hb
  · exact .inr (Option.some.inj (hb.symm.trans hj))

/-- Settles O36: by the ways a step can end; only a command and a reset input write an UNPACKER's
registers, and of the commands only `load` its source. -/
theorem onlyLoadWritesSource : Obligations.OnlyLoadWritesSource := by
  unfold Obligations.OnlyLoadWritesSource
  intro s t k a a' u u' h hk ha' hu hu' hne
  have hsame : a' ≠ a := by
    rintro rfl
    cases hu.symm.trans hu'
    exact hne rfl
  obtain ⟨_, rfl⟩ | ⟨j, b, hf, rfl⟩ | ⟨_, rfl⟩ | ⟨j, b, hf, rfl⟩ | ⟨i, hf, hi⟩ := step_next h
  · exact absurd (Option.some.inj (ha'.symm.trans hk)) hsame
  · obtain ⟨⟨rest, hh⟩, hj, _⟩ := State.fetch_resetInput hf
    obtain ⟨rfl, rfl⟩ | rfl := State.getElem?_set_cases hk ha'
    · cases hj.symm.trans hk
      rw [Agent.resetInput_regs, Agent.kind_of_unpacker hu] at hu'
      cases hu'
      exact .inr ⟨by rw [hh]; rfl, rfl⟩
    · exact absurd rfl hsame
  · exact absurd (Option.some.inj (ha'.symm.trans hk)) hsame
  · obtain ⟨hs, _⟩ := State.fetch_illegal hf
    obtain ⟨rfl, rfl⟩ | rfl := State.getElem?_set_cases hk ha'
    · cases (State.active_agent hs).symm.trans hk
      cases hu.symm.trans hu'
      exact absurd rfl hne
    · exact absurd rfl hsame
  · obtain ⟨j, b, rest, hs, _, hd⟩ := State.fetch_instr hf
    obtain ⟨⟨_, hh⟩, hj⟩ := State.active_eq_some.1 hs
    by_cases hjk : k = j
    · subst hjk
      cases hj.symm.trans hk
      obtain hsrc | rfl := exec_src hi hs ha' hu hu'
      · exact absurd hsrc hne
      · exact .inl ⟨by rw [hh]; rfl, rest, decode_of_decodeAt hd⟩
    · obtain ⟨_, _, _, _, hs', rfl⟩ := exec_completes hi
      cases hs.symm.trans hs'
      exact absurd (Option.some.inj (ha'.symm.trans ((State.complete_other hjk _ _).trans hk))) hsame

end Sys2Proof.Machine

/-! SUPPORT. Construction and the reset input (spec/10_state.md R42 to R44), the cursor of an UNPACKER as a
bit position (R32), and the invariants of R24, R31 and R78: what each command keeps, so what each step
keeps. -/

namespace Sys2Proof.Machine

variable {s t : State} {a : Agent} {p x : Packer} {u y : Unpacker} {c : Cfg} {k n : Nat} {i : Instr}
  {regs : Regs} {r : Response} {e : Status}

/-! ### The reset input and construction -/

/-- A reset input for an instance with a well-formed configuration is fetched as such. -/
theorem State.fetch_reset {rest : List HostAct} (hh : s.host = .reset k :: rest)
    (hk : s.agents[k]? = some a) (ha : ConfigOK a.cfg) : s.fetch = .resetInput k a := by
  simp only [State.fetch, hh, HostAct.target, hk, if_pos ha]

/-- Settles O9: the step fetches the reset input, which writes the registers of construction. -/
theorem resetInputReconstructs : Obligations.ResetInputReconstructs := by
  unfold Obligations.ResetInputReconstructs
  intro s k a rest hh hk ha
  have hstep : step s = .next (s.setAgent k a.resetInput).passTurn := by
    simp only [step, State.fetch_reset hh hk ha]
  have hrest : s.host.tail = rest := by rw [hh, List.tail_cons]
  rw [hstep, ← hrest]
  rfl

/-- The instance that construction puts in each place. -/
theorem State.construct_agent {units : List (UnitKind × Cfg)} {kind : UnitKind}
    (h : units[k]? = some (kind, c)) :
    (State.construct units).agents[k]? = some (Agent.construct kind c) := by
  simp only [State.construct, List.getElem?_map, h, Option.map_some]

/-- Settles O29: construction puts in each place an instance whose registers are at reset. -/
theorem constructionResetsRegisters : Obligations.ConstructionResetsRegisters := by
  unfold Obligations.ConstructionResetsRegisters
  exact fun units k c => ⟨fun h => ⟨_, State.construct_agent h, rfl, rfl⟩,
    fun h => ⟨_, State.construct_agent h, rfl, rfl⟩⟩

/-! ### The cursor as a bit position (R32) -/

theorem Unpacker.pos_div (h1 : 1 ≤ u.res) (h2 : u.res ≤ c.sw) : u.pos c / c.sw = u.idx := by
  rw [Unpacker.pos, Nat.mul_comm, Nat.mul_add_div (by omega), Nat.div_eq_of_lt (by omega), Nat.add_zero]

theorem Unpacker.pos_mod (h1 : 1 ≤ u.res) (h2 : u.res ≤ c.sw) : u.pos c % c.sw = c.sw - u.res := by
  rw [Unpacker.pos, Nat.mul_comm, Nat.mul_add_mod, Nat.mod_eq_of_lt (by omega)]

/-- R30's formula is the number of bits of the source beyond `POS`. -/
theorem Unpacker.availOf_eq (h1 : 1 ≤ u.res) (h2 : u.res ≤ c.sw) :
    availOf c u.len u.idx u.res = u.total c - u.pos c := by
  have h := availOf_seek (c := c) (by omega) u.len (u.pos c)
  rwa [Unpacker.pos_div h1 h2, Unpacker.pos_mod h1 h2, Nat.sub_sub_self h2] at h

/-- Settles O34: the cursor of R31 is the quotient and the remainder of `POS`, and `AVAIL` what lies
beyond it. -/
theorem cursorIsThePosition : Obligations.CursorIsThePosition := by
  unfold Obligations.CursorIsThePosition
  intro c u _ ⟨h1, h2, havail, _⟩
  refine ⟨(Unpacker.pos_div h1 h2).symm, ?_, ?_⟩
  · rw [Unpacker.pos_mod h1 h2, Nat.sub_sub_self h2]
  · rw [havail, Unpacker.availOf_eq h1 h2, ← Nat.cast_mul]
    show u.len * c.sw - u.pos c = _
    omega

/-- The UNPACKER invariant through the bit position: `AVAIL` is what lies beyond `POS`, and R31's bounds
on it follow. -/
theorem Unpacker.inv_iff_pos :
    u.Inv c ↔ 1 ≤ u.res ∧ u.res ≤ c.sw ∧ u.avail = u.total c - u.pos c ∧
      (u.src.all fun x => (decodeSymbol c x).isSome) = true ∧
      fits c.srcCap u.len = true ∧ u.len < 2 ^ 47 ∧ u.idx < 2 ^ 47 := by
  constructor
  · rintro ⟨h1, h2, havail, _, _, hrest⟩
    exact ⟨h1, h2, by rw [havail, Unpacker.availOf_eq h1 h2], hrest⟩
  · rintro ⟨h1, h2, havail, hrest⟩
    refine ⟨h1, h2, by rw [havail, Unpacker.availOf_eq h1 h2], by omega, fun hpos => ?_, hrest⟩
    have hlt : u.idx * c.sw < u.len * c.sw := by
      have := Nat.le_add_right (u.idx * c.sw) (c.sw - u.res)
      change 0 < u.avail at hpos
      unfold Unpacker.total Unpacker.pos at havail
      omega
    exact Nat.lt_of_mul_lt_mul_right hlt

/-! ### The UNPACKER's operations keep its invariant -/

/-- An accepted `load` of an input the port can carry leaves the invariant (R120). -/
theorem Unpacker.loaded_inv {input : List SymWord} (hc : ConfigOK c) (hload : loadCheck c input = none)
    (hlen : input.length < 2 ^ 47) : (Unpacker.loaded c input).Inv c := by
  obtain ⟨hsw, _⟩ := hc
  obtain ⟨hfits, hall⟩ := loadCheck_eq_none.1 hload
  refine Unpacker.inv_iff_pos.2 ⟨hsw, le_rfl, ?_, hall, hfits, hlen, Nat.two_pow_pos 47⟩
  simp [Unpacker.total, Unpacker.len, Unpacker.pos]

/-- An UNPACKER after reset has the empty source just loaded (R43, R211). -/
theorem Unpacker.reset_eq_loaded (c : Cfg) : Unpacker.reset c = Unpacker.loaded c [] := by
  simp [Unpacker.reset, Unpacker.loaded]

theorem Unpacker.reset_inv (hc : ConfigOK c) : (Unpacker.reset c).Inv c := by
  rw [Unpacker.reset_eq_loaded]
  refine Unpacker.loaded_inv hc (loadCheck_eq_none.2 ⟨?_, rfl⟩) (Nat.two_pow_pos 47)
  exact fits_eq_true.2 fun m _ => Nat.zero_le m

/-- A seek to a bit position the port can carry keeps the invariant, past the end too (R126). -/
theorem Unpacker.seek_inv {skip : Nat} (hc : ConfigOK c) (hskip : skip < 2 ^ 47) (hu : u.Inv c) :
    (u.seek c skip).Inv c := by
  obtain ⟨hsw, _⟩ := hc
  obtain ⟨_, _, _, hall, hfits, hlen, _⟩ := Unpacker.inv_iff_pos.1 hu
  have hmod : skip % c.sw < c.sw := Nat.mod_lt _ hsw
  have h1 : 1 ≤ (u.seek c skip).res := by rw [Unpacker.seek_res]; omega
  have h2 : (u.seek c skip).res ≤ c.sw := Nat.sub_le _ _
  exact Unpacker.inv_iff_pos.2 ⟨h1, h2, Unpacker.availOf_eq h1 h2, hall, hfits, hlen,
    lt_of_le_of_lt (Nat.div_le_self _ _) hskip⟩

/-- Going on to the next symbol keeps the bit position and leaves unread bits (R122). -/
theorem Unpacker.advance_cursor (hsw : 1 ≤ c.sw) (h : u.res ≤ c.sw) :
    1 ≤ (u.advance c).res ∧ (u.advance c).res ≤ c.sw ∧ (u.advance c).pos c = u.pos c := by
  unfold Unpacker.advance
  split
  · next h0 => exact ⟨hsw, le_rfl, by simp [Unpacker.pos, h0, Nat.succ_mul]⟩
  · next h0 => exact ⟨Nat.pos_of_ne_zero h0, h, rfl⟩

/-- The loop of R122 moves the cursor by as many bits as are owed. -/
theorem Unpacker.extract_cursor (hsw : 1 ≤ c.sw) (fuel : Nat) :
    ∀ (need acc : Nat) (u y : Unpacker) (v : Nat), need < fuel → 1 ≤ u.res → u.res ≤ c.sw →
      Unpacker.extract c fuel need acc u = .ok (y, v) →
      1 ≤ y.res ∧ y.res ≤ c.sw ∧ y.pos c = u.pos c + need := by
  induction fuel with
  | zero => exact fun need _ _ _ _ hfuel => absurd hfuel (Nat.not_lt_zero need)
  | succ fuel ih =>
    intro need acc u y v hfuel h1 h2 h
    unfold Unpacker.extract at h
    split at h
    · next h0 => cases h; exact ⟨h1, h2, by rw [h0]; rfl⟩
    · split at h
      · cases h
      · obtain ⟨hr1, hr2, hpos⟩ := Unpacker.advance_cursor (c := c)
          (u := { u with res := u.res - min need u.res }) hsw (by simp only; omega)
        obtain ⟨hy1, hy2, hy⟩ := ih _ _ _ _ _ (by omega) hr1 hr2 h
        refine ⟨hy1, hy2, ?_⟩
        rw [hy, hpos]
        simp only [Unpacker.pos]
        omega

/-- A `pop` that is done keeps the invariant: the cursor moves by the bits taken, which `AVAIL` held. -/
theorem Unpacker.pop_inv {width : Nat} (hc : ConfigOK c) (hu : u.Inv c)
    (h : Unpacker.pop width c u = .done y r) : y.Inv c := by
  obtain ⟨_, ⟨_, rfl, _⟩ | ⟨havail, v, _, hx⟩⟩ := Unpacker.pop_eq_done.1 h
  · exact hu
  · obtain ⟨h1, h2, heq, hall, hfits, hlen, _⟩ := Unpacker.inv_iff_pos.1 hu
    obtain ⟨hsrc, hav⟩ := Unpacker.extract_src_avail _ _ _ _ _ _ hx
    obtain ⟨hy1, hy2, hpos⟩ := Unpacker.extract_cursor hc.1 _ _ _
      { u with avail := u.avail - min width u.avail } _ _ (Nat.lt_succ_self _) h1 h2 hx
    change y.src = u.src at hsrc
    change y.avail = u.avail - min width u.avail at hav
    change y.pos c = u.pos c + min width u.avail at hpos
    have hlen' : y.len = u.len := congrArg List.length hsrc
    have htotal : y.total c = u.total c := by rw [Unpacker.total, Unpacker.total, hlen']
    have hidx : y.idx ≤ u.len := by
      have hle : y.pos c / c.sw ≤ u.total c / c.sw := Nat.div_le_div_right (by omega)
      rwa [Unpacker.pos_div hy1 hy2, Unpacker.total, Nat.mul_div_cancel _ hc.1] at hle
    exact Unpacker.inv_iff_pos.2 ⟨hy1, hy2, by omega, hsrc ▸ hall, hlen' ▸ hfits, hlen' ▸ hlen,
      lt_of_le_of_lt hidx hlen⟩

/-! ### The PACKER's operations keep its invariant -/

theorem fits_of_le {cap : Option Nat} {m : Nat} (h : fits cap m = true) (hn : n ≤ m) : fits cap n = true :=
  fits_eq_true.2 fun b hb => hn.trans (fits_eq_true.1 h b hb)

theorem Packer.reset_inv (hc : ConfigOK c) : (Packer.reset c).Inv c :=
  ⟨hc.1, le_rfl, Nat.two_pow_pos _, Nat.zero_mod _, fits_eq_true.2 fun m _ => Nat.zero_le m, rfl⟩

/-- The tail of fewer bits than are free goes left-justified into the free slot (R101). -/
theorem Packer.placeTail_inv {rem : Nat} (v : Nat) (hrem : rem < p.slot) (hp : p.Inv c) :
    (p.placeTail v rem).Inv c := by
  obtain ⟨h1, h2, hacc, hfree, hfits, hall⟩ := hp
  unfold Packer.placeTail
  split
  · refine ⟨Nat.sub_pos_of_lt hrem, by simp only; omega, ?_, ?_, hfits, hall⟩
    · have htail : (v % 2 ^ rem) <<< (p.slot - rem) < 2 ^ c.sw := by
        calc (v % 2 ^ rem) <<< (p.slot - rem)
            < 2 ^ rem * 2 ^ (p.slot - rem) := by
              rw [Nat.shiftLeft_eq]
              exact Nat.mul_lt_mul_of_pos_right (Nat.mod_lt _ (Nat.two_pow_pos _)) (Nat.two_pow_pos _)
          _ = 2 ^ p.slot := by rw [← pow_add, Nat.add_sub_cancel' hrem.le]
          _ ≤ 2 ^ c.sw := Nat.pow_le_pow_right two_pos h2
      exact Nat.or_lt_two_pow hacc htail
    · have hdvd : p.acc % 2 ^ (p.slot - rem) = 0 :=
        Nat.mod_eq_zero_of_dvd ((pow_dvd_pow 2 (Nat.sub_le _ _)).trans (Nat.dvd_of_mod_eq_zero hfree))
      simp only [Nat.or_mod_two_pow, hdvd, Nat.shiftLeft_eq, Nat.mul_mod_left, Nat.or_zero]
  · exact ⟨h1, h2, hacc, hfree, hfits, hall⟩

/-- One turn of the loop of R101 emits one of the symbols the push was to emit. -/
theorem Packer.symbolsEmitted_fillSymbol {v m : Nat} (hsw : 1 ≤ c.sw) (h2 : p.slot ≤ c.sw)
    (hm : p.slot ≤ m) :
    symbolsEmitted c (p.fillSymbol c v m) (m - p.slot) + 1 = symbolsEmitted c p m := by
  have hsum : c.sw - p.slot + m = m - p.slot + c.sw := by omega
  rw [symbolsEmitted, symbolsEmitted, hsum, Nat.add_div_right _ hsw, Packer.fillSymbol_slot, Nat.sub_self,
    Nat.zero_add]

/-- One turn of the loop of R101 keeps the invariant where the queue has room for its symbol. -/
theorem Packer.fillSymbol_inv {v m : Nat} (hsw : 1 ≤ c.sw) (hp : p.Inv c)
    (hroom : fits c.pendCap (p.pend.length + 1) = true) : (p.fillSymbol c v m).Inv c := by
  obtain ⟨_, _, _, _, _, hall⟩ := hp
  refine ⟨hsw, le_rfl, Nat.two_pow_pos _, Nat.zero_mod _, ?_, pendAppend_storageWf hall _⟩
  rwa [Packer.fillSymbol_pend, List.length_append, List.length_singleton]

/-- The loop of R101 and its end keep the invariant where the queue has room for what is emitted. -/
theorem Packer.appendBits_inv (hsw : 1 ≤ c.sw) (v fuel : Nat) :
    ∀ (m : Nat) (p : Packer), m < fuel → p.Inv c →
      fits c.pendCap (p.pend.length + symbolsEmitted c p m) = true → (p.appendBits c v fuel m).Inv c := by
  induction fuel with
  | zero => exact fun m _ hfuel => absurd hfuel (Nat.not_lt_zero m)
  | succ fuel ih =>
    intro m p hfuel hp hroom
    unfold Packer.appendBits
    split
    · next hm =>
      have ⟨h1, h2, _⟩ := hp
      have hcount := Packer.symbolsEmitted_fillSymbol (v := v) hsw h2 hm
      refine ih _ _ (by omega) (Packer.fillSymbol_inv hsw hp (fits_of_le hroom (by omega))) ?_
      refine fits_of_le hroom ?_
      rw [Packer.fillSymbol_pend, List.length_append, List.length_singleton]
      omega
    · next hm => exact Packer.placeTail_inv v (not_le.1 hm) hp

/-- A `push` that is done keeps the invariant. -/
theorem Packer.push_inv {value : Int} {width : Nat} (hc : ConfigOK c) (hp : p.Inv c)
    (h : Packer.push value width c p = .done x r) : x.Inv c := by
  obtain ⟨hcheck, rfl, _⟩ := Packer.push_eq_done.1 h
  obtain ⟨_, _, _, hroom⟩ := pushCheck_eq_none.1 hcheck
  exact Packer.appendBits_inv hc.1 _ _ _ p (Nat.lt_succ_self width) hp hroom

/-- The symbols a `flush` hands out are of type `Sym` (R105). -/
theorem Packer.flushed_isSymbol (hp : p.Inv c) :
    ((p.flushed c).all fun x => decide (IsSymbol c x)) = true := by
  obtain ⟨_, _, _, _, _, hall⟩ := hp
  unfold Packer.flushed
  split
  · exact pendAppend_storageWf hall p.acc
  · exact hall

/-! ### The form of the responses (R78) -/

theorem Response.error_inv (he : e ≠ .eConfig) : (Response.error e).Inv c :=
  ⟨he, nofun, fun _ => ⟨rfl, rfl⟩, fun h => absurd rfl h, rfl⟩

theorem Response.okay_inv : Response.okay.Inv c :=
  ⟨nofun, nofun, fun h => absurd rfl h, fun h => absurd rfl h, rfl⟩

theorem Response.value_inv (v : Nat) : (Response.value v).Inv c :=
  ⟨nofun, nofun, fun h => absurd rfl h, fun h => absurd rfl h, rfl⟩

theorem Response.nullAnswer_inv : Response.nullAnswer.Inv c :=
  ⟨nofun, fun _ => ⟨rfl, rfl, rfl⟩, fun h => absurd rfl h, fun h => absurd rfl h, rfl⟩

theorem Response.symbols_inv {out : List SymWord} (h : (out.all fun x => decide (IsSymbol c x)) = true) :
    (Response.symbols out).Inv c :=
  ⟨nofun, nofun, fun h => absurd rfl h, fun _ => rfl, h⟩

/-! ### What a unit's operation keeps -/

/-- The result of an operation leaves registers that meet `inv` and a response of the form of R78. -/
def UnitResult.Keeps {σ : Type} (inv : σ → Prop) (c : Cfg) : UnitResult σ → Prop
  | .done x r => inv x ∧ r.Inv c
  | .rejected e => e ≠ .eConfig
  | .stopped _ => True

/-- `E_CONFIG` is no answer to a command (R190): no check gives it. -/
theorem pushCheck_ne_eConfig {value : Int} {width : Nat} : pushCheck c p value width ≠ some .eConfig := by
  unfold pushCheck
  repeat' split
  all_goals simp

theorem loadCheck_ne_eConfig {input : List SymWord} : loadCheck c input ≠ some .eConfig := by
  unfold loadCheck
  repeat' split
  all_goals simp

theorem Packer.push_keeps (value : Int) (width : Nat) (hc : ConfigOK c) (hp : p.Inv c) :
    (Packer.push value width c p).Keeps (Packer.Inv c) c := by
  cases h : Packer.push value width c p with
  | done x r =>
    obtain ⟨_, _, rfl⟩ := Packer.push_eq_done.1 h
    exact ⟨Packer.push_inv hc hp h, Response.okay_inv⟩
  | rejected e =>
    rintro rfl
    exact pushCheck_ne_eConfig (Packer.push_eq_rejected.1 h)
  | stopped f => trivial

theorem Packer.flush_keeps (hc : ConfigOK c) (hp : p.Inv c) :
    (Packer.flush c p).Keeps (Packer.Inv c) c :=
  ⟨Packer.reset_inv hc, Response.symbols_inv (Packer.flushed_isSymbol hp)⟩

theorem Unpacker.load_keeps {input : List SymWord} (hlen : input.length < 2 ^ 47) (hc : ConfigOK c) :
    (Unpacker.load input c u).Keeps (Unpacker.Inv c) c := by
  cases h : Unpacker.load input c u with
  | done y r =>
    obtain ⟨hload, rfl, rfl⟩ := Unpacker.load_eq_done.1 h
    exact ⟨Unpacker.loaded_inv hc hload hlen, Response.okay_inv⟩
  | rejected e =>
    rintro rfl
    exact loadCheck_ne_eConfig (Unpacker.load_eq_rejected.1 h)
  | stopped f => trivial

theorem Unpacker.pop_keeps (width : Nat) (hc : ConfigOK c) (hu : u.Inv c) :
    (Unpacker.pop width c u).Keeps (Unpacker.Inv c) c := by
  cases h : Unpacker.pop width c u with
  | done y r =>
    refine ⟨Unpacker.pop_inv hc hu h, ?_⟩
    obtain ⟨_, ⟨_, _, rfl⟩ | ⟨_, v, rfl, _⟩⟩ := Unpacker.pop_eq_done.1 h
    · exact Response.nullAnswer_inv
    · exact Response.value_inv v
  | rejected e =>
    obtain ⟨rfl, _⟩ := popCheck_eq_some.1 (Unpacker.pop_eq_rejected.1 h)
    exact nofun
  | stopped f => trivial

theorem Unpacker.offset_keeps {skip : Int} (hskip : InOpndRange skip) (hc : ConfigOK c) (hu : u.Inv c) :
    (Unpacker.offset skip c u).Keeps (Unpacker.Inv c) c := by
  cases h : Unpacker.offset skip c u with
  | done y r =>
    obtain ⟨_, rfl, rfl⟩ := Unpacker.offset_eq_done.1 h
    obtain ⟨_, hlt⟩ := hskip
    exact ⟨Unpacker.seek_inv hc (by omega) hu, Response.okay_inv⟩
  | rejected e =>
    obtain ⟨rfl, _⟩ := Unpacker.offset_eq_rejected.1 h
    exact nofun
  | stopped f => trivial

/-! ### Instances and the machine -/

theorem Regs.inv_packer : (Regs.packer p).inv c = true ↔ p.Inv c := decide_eq_true_iff

theorem Regs.inv_unpacker : (Regs.unpacker u).inv c = true ↔ u.Inv c := decide_eq_true_iff

theorem Regs.reset_inv (hc : ConfigOK c) (kind : UnitKind) : (Regs.reset c kind).inv c = true := by
  cases kind with
  | packer => exact Regs.inv_packer.2 (Packer.reset_inv hc)
  | unpacker => exact Regs.inv_unpacker.2 (Unpacker.reset_inv hc)

theorem Agent.Inv.regs_inv (h : a.Inv) : a.regs.inv a.cfg = true := h.2.1

theorem Agent.construct_inv (hc : ConfigOK c) (kind : UnitKind) : (Agent.construct kind c).Inv :=
  ⟨hc, Regs.reset_inv hc kind, nofun⟩

theorem Agent.resetInput_inv (h : a.Inv) : a.resetInput.Inv := by
  obtain ⟨hc, _, hresp⟩ := h
  exact ⟨hc, Regs.reset_inv hc a.kind, hresp⟩

/-- An instance keeps its invariant where the new registers and the response meet theirs. -/
theorem Agent.respond_inv (h : a.Inv) (hregs : regs.inv a.cfg = true) (hr : r.Inv a.cfg) :
    (a.respond n regs r).Inv := by
  obtain ⟨hc, _, hresp⟩ := h
  refine ⟨hc, hregs, fun r' hr' => ?_⟩
  obtain hold | hnew := List.mem_append.1 hr'
  · exact hresp r' hold
  · cases List.mem_singleton.1 hnew
    exact hr

/-- An operation that ended, and whose result keeps the invariant, left the instance with its own. -/
theorem UnitResult.EndsIn.respond_inv {σ : Type} {res : UnitResult σ} {toRegs : σ → Regs} {z : σ}
    {inv : σ → Prop} (h : res.EndsIn toRegs z regs r) (ha : a.Inv) (hz : a.regs = toRegs z)
    (hinv : ∀ z, inv z → (toRegs z).inv a.cfg = true) (hkeeps : res.Keeps inv a.cfg) :
    (a.respond n regs r).Inv := by
  obtain ⟨y, rfl, rfl⟩ | ⟨e, rfl, rfl, rfl⟩ := h
  · obtain ⟨hy, hr⟩ := hkeeps
    exact Agent.respond_inv ha (hinv y hy) hr
  · exact Agent.respond_inv ha (hz ▸ ha.regs_inv) (Response.error_inv hkeeps)

theorem State.agent_inv (h : s.Inv) (hk : s.agents[k]? = some a) : a.Inv :=
  h.1 a (List.mem_of_getElem? hk)

/-- The machine keeps its invariant when one instance is replaced by one that meets its own and the host
goes on in its script. -/
theorem State.setAgent_inv (h : s.Inv) (ha : a.Inv) : (s.setAgent k a).Inv := by
  obtain ⟨hagents, hhost⟩ := h
  refine ⟨fun b hb => ?_, fun act hact => ?_⟩
  · obtain hb | rfl := List.mem_or_eq_of_mem_set hb
    · exact hagents b hb
    · exact ha
  · rw [State.setAgent_agents, List.length_set]
    exact hhost act hact

theorem State.passTurn_inv (h : s.Inv) : s.passTurn.Inv :=
  ⟨h.1, fun act hact => h.2 act (List.mem_of_mem_tail hact)⟩

theorem State.complete_inv (h : s.Inv) (ha : (a.respond n regs r).Inv) : (s.complete k a n regs r).Inv :=
  State.passTurn_inv (State.setAgent_inv h ha)

theorem State.reject_inv (h : s.Inv) (hs : s.active = some (k, a)) (he : e ≠ .eConfig) :
    (s.reject k a n e).Inv := by
  have ha := State.agent_inv h (State.active_agent hs)
  exact State.complete_inv h (Agent.respond_inv ha ha.regs_inv (Response.error_inv he))

/-- Settles O30: every instance just constructed meets its invariant, and the host does nothing yet. -/
theorem invariantAtReset : Obligations.InvariantAtReset := by
  unfold Obligations.InvariantAtReset
  have hconstruct : ∀ units : List (UnitKind × Cfg), (∀ x ∈ units, ConfigOK x.2) →
      (State.construct units).Inv := by
    refine fun units hunits => ⟨fun a ha => ?_, nofun⟩
    obtain ⟨x, hx, rfl⟩ := List.mem_map.1 ha
    exact Agent.construct_inv (hunits x hx) x.1
  exact ⟨hconstruct, hconstruct _ (by decide)⟩

/-! ### Commands and steps keep the invariant -/

theorem State.onPacker_keepsInv {op : Cfg → Packer → UnitResult Packer}
    (hop : ∀ c p, ConfigOK c → p.Inv c → (op c p).Keeps (Packer.Inv c) c) (h : s.Inv)
    (hn : s.onPacker n op = .next t) : t.Inv := by
  obtain ⟨k, a, hs, hc, _⟩ := State.onPacker_next hn
  obtain ⟨regs, r, rfl, hother, hown⟩ := State.onPacker_effect hn hs
  have ha := State.agent_inv h (State.active_agent hs)
  refine State.complete_inv h ?_
  cases hregs : a.regs with
  | packer p =>
    have hp : p.Inv a.cfg := Regs.inv_packer.1 (hregs ▸ ha.regs_inv)
    exact (hown p hregs).respond_inv ha hregs (fun _ => Regs.inv_packer.2) (hop a.cfg p hc hp)
  | unpacker u =>
    obtain ⟨rfl, rfl⟩ := hother u hregs
    exact Agent.respond_inv ha (hregs ▸ ha.regs_inv) (Response.error_inv nofun)

theorem State.onUnpacker_keepsInv {op : Cfg → Unpacker → UnitResult Unpacker}
    (hop : ∀ c u, ConfigOK c → u.Inv c → (op c u).Keeps (Unpacker.Inv c) c) (h : s.Inv)
    (hn : s.onUnpacker n op = .next t) : t.Inv := by
  obtain ⟨k, a, hs, hc, _⟩ := State.onUnpacker_next hn
  obtain ⟨regs, r, rfl, hother, hown⟩ := State.onUnpacker_effect hn hs
  have ha := State.agent_inv h (State.active_agent hs)
  refine State.complete_inv h ?_
  cases hregs : a.regs with
  | packer p =>
    obtain ⟨rfl, rfl⟩ := hother p hregs
    exact Agent.respond_inv ha (hregs ▸ ha.regs_inv) (Response.error_inv nofun)
  | unpacker u =>
    have hu : u.Inv a.cfg := Regs.inv_unpacker.1 (hregs ▸ ha.regs_inv)
    exact (hown u hregs).respond_inv ha hregs (fun _ => Regs.inv_unpacker.2) (hop a.cfg u hc hu)

/-- A command the port can carry keeps the invariant (R161). -/
theorem exec_keepsInv (hi : i.wellFormed = true) (h : s.Inv) (hn : exec i s = .next t) : t.Inv := by
  cases i with
  | push value width =>
    exact State.onPacker_keepsInv (op := Packer.push value width)
      (fun _ _ => Packer.push_keeps value width) h hn
  | flush => exact State.onPacker_keepsInv (op := Packer.flush) (fun _ _ => Packer.flush_keeps) h hn
  | load input =>
    have hlen : input.length < 2 ^ 47 := of_decide_eq_true hi
    exact State.onUnpacker_keepsInv (op := Unpacker.load input)
      (fun _ _ hc _ => Unpacker.load_keeps hlen hc) h hn
  | pop width =>
    exact State.onUnpacker_keepsInv (op := Unpacker.pop width) (fun _ _ => Unpacker.pop_keeps width) h hn
  | offset skip =>
    have hskip : InOpndRange skip := of_decide_eq_true hi
    exact State.onUnpacker_keepsInv (op := Unpacker.offset skip)
      (fun _ _ => Unpacker.offset_keeps hskip) h hn

/-- A command word that decodes, with as many symbol words as it asks for, is a command the port can
carry. -/
theorem toInstr_wellFormed {cw : Word} {hd : Header} {input : List SymWord} (h : decodeHeader cw = .ok hd)
    (hlen : input.length = hd.symbolWords) : (hd.toInstr input).wellFormed = true := by
  have hopnd : decide (InOpndRange (intOperand cw)) = true := decide_eq_true (intOperand_range cw)
  have hwidth : decide (widthOperand cw < 64) = true := decide_eq_true (widthField cw).isLt
  obtain ⟨_, ⟨_, rfl⟩ | ⟨_, _, _, rfl⟩ | ⟨_, _, _, rfl⟩ | ⟨_, _, rfl⟩ | ⟨_, _, rfl⟩⟩ := decodeHeader_ok h
  · exact Bool.and_eq_true_iff.2 ⟨hopnd, hwidth⟩
  · rfl
  · obtain ⟨_, hlt⟩ := intOperand_range cw
    change input.length = (intOperand cw).toNat at hlen
    exact decide_eq_true (by omega)
  · exact hwidth
  · exact hopnd

/-- Every command that decodes is one the port can carry (R73, R74, R76). -/
theorem decode_wellFormed {ws rest : List Word} (h : decode ws = .instr i rest) : i.wellFormed = true := by
  unfold decode at h
  split at h
  · cases h
  · split at h
    · cases h
    · next hd hhd =>
      split at h
      · next hle =>
        cases h
        exact toInstr_wellFormed hhd (List.length_take_of_le hle)
      · cases h

/-- Settles O31: by the ways a step can end; a command that runs was decoded at a port, so its operands
are in range and `exec_keepsInv` applies. -/
theorem stepKeepsInvariant : Obligations.StepKeepsInvariant := by
  unfold Obligations.StepKeepsInvariant
  intro s t hinv h
  obtain ⟨_, rfl⟩ | ⟨k, a, hf, rfl⟩ | ⟨_, rfl⟩ | ⟨k, a, hf, rfl⟩ | ⟨i, hf, hi⟩ := step_next h
  · exact hinv
  · obtain ⟨_, hk, _⟩ := State.fetch_resetInput hf
    exact State.passTurn_inv (State.setAgent_inv hinv (Agent.resetInput_inv (State.agent_inv hinv hk)))
  · exact State.passTurn_inv hinv
  · exact State.reject_inv hinv (State.fetch_illegal hf).1 nofun
  · obtain ⟨k, a, rest, _, _, hd⟩ := State.fetch_instr hf
    exact exec_keepsInv (decode_wellFormed (decode_of_decodeAt hd)) hinv hi

end Sys2Proof.Machine

/-! SUPPORT. No command stops: the reads of a `pop` stay inside its source (spec/20_memory.md R60), so every
command, and with it every step, of a machine that meets the invariant answers a next state
(spec/42_laws.md R160, R161). -/

namespace Sys2Proof.Machine

variable {s t : State} {a : Agent} {p : Packer} {u : Unpacker} {c : Cfg} {k n : Nat}

/-! ### The reads of a `pop` -/

/-- Inside a source whose symbols all decode, `pop` reads a code (R52, R60). -/
theorem readCode_ok {src : List SymWord} {j : Nat} (hj : j < src.length)
    (hall : (src.all fun x => (decodeSymbol c x).isSome) = true) : ∃ v, readCode c src j = .ok v := by
  obtain ⟨v, hv⟩ := Option.isSome_iff_exists.1 (List.all_eq_true.1 hall _ (List.getElem_mem hj))
  exact ⟨v, by simp only [readCode, List.getElem?_eq_getElem hj, hv]⟩

/-- With bits of the source left beyond the cursor, the cursor's symbol is in the source (R31). -/
theorem Unpacker.idx_lt_len (h1 : 1 ≤ u.res) (h2 : u.res ≤ c.sw) (h : u.pos c < u.total c) :
    u.idx < u.len := by
  rw [← Unpacker.pos_div h1 h2]
  exact Nat.div_lt_of_lt_mul (by rwa [Nat.mul_comm])

/-- The loop of R122 ends where the bits owed lie in the source: it never reads beyond it (R60). -/
theorem Unpacker.extract_ok (hsw : 1 ≤ c.sw) (fuel : Nat) :
    ∀ (need acc : Nat) (u : Unpacker), 1 ≤ u.res → u.res ≤ c.sw → u.pos c + need ≤ u.total c →
      (u.src.all fun x => (decodeSymbol c x).isSome) = true →
      ∃ z, Unpacker.extract c fuel need acc u = .ok z := by
  induction fuel with
  | zero => exact fun _ acc u _ _ _ _ => ⟨(u, acc), rfl⟩
  | succ fuel ih =>
    intro need acc u h1 h2 hroom hall
    unfold Unpacker.extract
    split
    · exact ⟨_, rfl⟩
    · have hidx : u.idx < u.len := Unpacker.idx_lt_len h1 h2 (by omega)
      obtain ⟨v, hv⟩ := readCode_ok hidx hall
      rw [hv]
      obtain ⟨hr1, hr2, hpos⟩ := Unpacker.advance_cursor (c := c)
        (u := { u with res := u.res - min need u.res }) hsw (by simp only; omega)
      refine ih _ _ _ hr1 hr2 ?_ (by rwa [Unpacker.advance_src])
      have htotal : (Unpacker.advance c { u with res := u.res - min need u.res }).total c = u.total c := by
        rw [Unpacker.total, Unpacker.len, Unpacker.advance_src]; rfl
      rw [hpos, htotal]
      simp only [Unpacker.pos] at hroom ⊢
      omega

/-! ### No operation stops -/

theorem Packer.push_ne_stopped {value : Int} {width : Nat} (f : Fault) :
    Packer.push value width c p ≠ .stopped f := by
  unfold Packer.push
  split <;> exact nofun

theorem Unpacker.load_ne_stopped {input : List SymWord} (f : Fault) :
    Unpacker.load input c u ≠ .stopped f := by
  unfold Unpacker.load
  split <;> exact nofun

theorem Unpacker.offset_ne_stopped {skip : Int} (f : Fault) : Unpacker.offset skip c u ≠ .stopped f := by
  unfold Unpacker.offset
  split <;> exact nofun

/-- A `pop` takes no more than `AVAIL`, the bits of the source beyond the cursor (R121, R60). -/
theorem Unpacker.pop_ne_stopped {width : Nat} (hc : ConfigOK c) (hu : u.Inv c) (f : Fault) :
    Unpacker.pop width c u ≠ .stopped f := by
  obtain ⟨h1, h2, havail, hall, _⟩ := Unpacker.inv_iff_pos.1 hu
  unfold Unpacker.pop
  split
  · exact nofun
  · split
    · exact nofun
    · next hx =>
      have hpos : u.avail ≠ 0 := fun h0 => hx (beq_iff_eq.2 h0)
      have hroom : u.pos c + min width u.avail ≤ u.total c := by omega
      obtain ⟨z, hz⟩ := Unpacker.extract_ok hc.1 (popFuel (min width u.avail)) (min width u.avail) 0
        { u with avail := u.avail - min width u.avail } h1 h2 hroom hall
      simp only [hz]
      exact nofun

/-! ### Every command and every step completes -/

theorem State.finish_completes {σ : Type} {toRegs : σ → Regs} {res : UnitResult σ}
    (h : ∀ f, res ≠ .stopped f) : ∃ t, s.finish k a n toRegs res = .next t := by
  cases res with
  | done x r => exact ⟨_, rfl⟩
  | rejected e => exact ⟨_, rfl⟩
  | stopped f => exact absurd rfl (h f)

/-- A PACKER's operation that never stops completes on every instance, with `E_ILLEGAL` on an UNPACKER. -/
theorem State.onPacker_completes {op : Cfg → Packer → UnitResult Packer} (hs : s.active = some (k, a))
    (hc : ConfigOK a.cfg) (hop : ∀ p f, op a.cfg p ≠ .stopped f) : ∃ t, s.onPacker n op = .next t := by
  cases hregs : a.regs with
  | packer p =>
    rw [State.onPacker_packer hs hc hregs]
    exact State.finish_completes (hop p)
  | unpacker u => exact ⟨_, State.onPacker_unpacker hs hc hregs op⟩

/-- An UNPACKER's operation that does not stop on registers that meet the invariant completes wherever the
invariant holds, with `E_ILLEGAL` on a PACKER. -/
theorem State.onUnpacker_completes {op : Cfg → Unpacker → UnitResult Unpacker}
    (hs : s.active = some (k, a)) (ha : a.Inv) (hop : ∀ u, u.Inv a.cfg → ∀ f, op a.cfg u ≠ .stopped f) :
    ∃ t, s.onUnpacker n op = .next t := by
  obtain ⟨hc, hinv, _⟩ := ha
  cases hregs : a.regs with
  | packer p => exact ⟨_, State.onUnpacker_packer hs hc hregs op⟩
  | unpacker u =>
    rw [State.onUnpacker_unpacker hs hc hregs]
    exact State.finish_completes (hop u (Regs.inv_unpacker.1 (hregs ▸ hinv)))

/-- Settles O28: no operation stops on registers that meet the invariant; only `pop` needs the invariant
for that. -/
theorem everyCommandCompletes : Obligations.EveryCommandCompletes := by
  unfold Obligations.EveryCommandCompletes
  intro i s k a hs ha
  have ⟨hc, _⟩ := ha
  cases i with
  | push value width => exact State.onPacker_completes hs hc fun _ => Packer.push_ne_stopped
  | flush => exact State.onPacker_completes hs hc fun _ _ => nofun
  | load input => exact State.onUnpacker_completes hs ha fun _ _ => Unpacker.load_ne_stopped
  | pop width => exact State.onUnpacker_completes hs ha fun _ => Unpacker.pop_ne_stopped hc
  | offset skip => exact State.onUnpacker_completes hs ha fun _ _ => Unpacker.offset_ne_stopped

/-- A step on a command act completes where the instance meets its invariant, whatever stands at its
port. -/
theorem step_command_completes (hs : s.active = some (k, a)) (ha : a.Inv) : ∃ t, step s = .next t := by
  have hf := State.fetch_command hs ha.1
  obtain hw | hw | ⟨i, hw⟩ := fetchAt_cases k a <;> rw [hw] at hf
  · exact ⟨s.passTurn, by simp only [step, hf]⟩
  · exact ⟨s.reject k a 1 .eIllegal, by simp only [step, hf]⟩
  · obtain ⟨t, ht⟩ := everyCommandCompletes i s k a hs ha
    exact ⟨t, by simp only [step, hf, ht]⟩

/-- Settles O32: by the host's next act, which names an instance that exists and meets its invariant; the
next state meets the invariant by `stepKeepsInvariant`. -/
theorem safeMachineNeverStops : Obligations.SafeMachineNeverStops := by
  unfold Obligations.SafeMachineNeverStops
  intro s hinv
  suffices hstep : ∃ t, step s = .next t by
    obtain ⟨t, ht⟩ := hstep
    exact ⟨t, ht, stepKeepsInvariant s t hinv ht⟩
  cases hh : s.host with
  | nil => exact ⟨s, by simp only [step, State.fetch, hh]⟩
  | cons act rest =>
    have hlt : act.target < s.agents.length := hinv.2 act (by rw [hh]; exact List.mem_cons_self)
    have hk : s.agents[act.target]? = some s.agents[act.target] := List.getElem?_eq_getElem hlt
    have ha := State.agent_inv hinv hk
    cases act with
    | command k => exact step_command_completes (State.active_eq_some.2 ⟨⟨rest, hh⟩, hk⟩) ha
    | reset k => exact ⟨_, resetInputReconstructs s k _ rest hh hk ha.1⟩

end Sys2Proof.Machine

/-! SUPPORT. The memory primitives `StreamBit` and `MemRead` against the one integer of all the symbol codes
(spec/20_memory.md R53 to R55). -/

namespace Sys2Proof.Machine

variable {c : Cfg} {src : List SymWord} {x : SymWord} {b : Nat}

/-! ### `StreamBit` and the integer of all the symbol codes -/

theorem streamNat_concat :
    streamNat c (src ++ [x]) = streamNat c src * 2 ^ c.sw + (decodeSymbol c x).getD 0 := by
  simp only [streamNat, List.foldl_append, List.foldl_cons, List.foldl_nil]

/-- A symbol code has no bit at or above `SW`, also where a symbol that does not decode counts as 0. -/
theorem decodeSymbol_getD_lt (c : Cfg) (x : SymWord) : (decodeSymbol c x).getD 0 < 2 ^ c.sw := by
  cases h : decodeSymbol c x with
  | none => exact Nat.two_pow_pos _
  | some v => exact decodeSymbol_lt h

theorem srcCode_concat_of_lt {j : Nat} (h : j < src.length) : srcCode c (src ++ [x]) j = srcCode c src j := by
  rw [srcCode, srcCode, List.getElem?_append_left h]

theorem srcCode_concat_length : srcCode c (src ++ [x]) src.length = decodeSymbol c x := by
  rw [srcCode, List.getElem?_concat_length, Option.bind_some]

theorem streamBit_eq_testBit (c : Cfg) (src : List SymWord) (b : Nat) :
    streamBit c src b = (((srcCode c src (b / c.sw)).getD 0).testBit (c.sw - 1 - b % c.sw)).toNat := by
  rw [streamBit, Nat.toNat_testBit, Nat.shiftRight_eq_div_pow]

/-- R53 and R54 agree on one bit: `StreamBit(b)` is the bit of the integer of all the symbol codes that lies
`b` below its most significant. -/
theorem streamBit_eq_testBit_streamNat (hsw : 1 ≤ c.sw) (hb : b < src.length * c.sw) :
    streamBit c src b = ((streamNat c src).testBit (src.length * c.sw - 1 - b)).toNat := by
  rw [streamBit_eq_testBit]
  induction src using List.reverseRecOn with
  | nil => simp at hb
  | append_singleton src x ih =>
    rw [List.length_append, List.length_singleton, Nat.succ_mul] at hb ⊢
    rw [streamNat_concat, Nat.mul_comm, Nat.testBit_two_pow_mul_add _ (decodeSymbol_getD_lt c x)]
    by_cases hlast : b < src.length * c.sw
    · have hshift : src.length * c.sw + c.sw - 1 - b - c.sw = src.length * c.sw - 1 - b := by omega
      have hidx : b / c.sw < src.length := Nat.div_lt_of_lt_mul (by rwa [Nat.mul_comm])
      rw [if_neg (by omega), hshift, srcCode_concat_of_lt hidx, ih hlast]
    · obtain ⟨r, rfl⟩ := Nat.exists_eq_add_of_le' (not_lt.1 hlast)
      have hr : r < c.sw := by omega
      have hdiv : (r + src.length * c.sw) / c.sw = src.length := by
        rw [Nat.add_mul_div_right _ _ hsw, Nat.div_eq_of_lt hr, Nat.zero_add]
      have hshift : src.length * c.sw + c.sw - 1 - (r + src.length * c.sw) = c.sw - 1 - r := by omega
      rw [hdiv, srcCode_concat_length, Nat.add_mul_mod_self_right, Nat.mod_eq_of_lt hr, hshift,
        if_pos (by omega)]

/-! ### `MemRead` -/

@[simp] theorem memRead_zero (c : Cfg) (src : List SymWord) (b : Nat) : memRead c src b 0 = 0 := rfl

theorem memRead_succ (c : Cfg) (src : List SymWord) (b n : Nat) :
    memRead c src b (n + 1) = memRead c src b n * 2 + streamBit c src (b + n) := rfl

/-- Settles O38, by induction on the number of bits read last. -/
theorem memReadSplits : Obligations.MemReadSplits := by
  unfold Obligations.MemReadSplits
  intro c src p m n
  induction n with
  | zero => simp
  | succ n ih =>
    rw [← Nat.add_assoc, memRead_succ, memRead_succ, ih, Nat.add_assoc p m n]
    ring

/-- One bit more of a slice of `N`: what stands above the lowest bit is the slice that ends one bit
earlier. -/
theorem shiftRight_mod_two_pow_succ (N d n : Nat) :
    (N >>> d) % 2 ^ (n + 1) = (N >>> (d + 1)) % 2 ^ n * 2 + (N.testBit d).toNat := by
  rw [Nat.toNat_testBit, Nat.pow_succ', Nat.mod_mul, Nat.shiftRight_succ, ← Nat.shiftRight_eq_div_pow,
    Nat.add_comm, Nat.mul_comm 2]

/-- Settles O39, by induction on the number of bits read; each is the next bit of the integer of all the
symbol codes. A symbol that does not decode counts as 0 on both sides (log 25), so the proof does not need
that they all decode. -/
theorem memReadIsSlice : Obligations.MemReadIsSlice := by
  unfold Obligations.MemReadIsSlice
  intro c src b n ⟨hsw, _⟩ _ hroom
  induction n with
  | zero => simp [Nat.mod_one]
  | succ n ih =>
    have hdepth : src.length * c.sw - b - n = src.length * c.sw - b - (n + 1) + 1 := by omega
    have hbit : src.length * c.sw - 1 - (b + n) = src.length * c.sw - b - (n + 1) := by omega
    rw [memRead_succ, ih (by omega), hdepth, streamBit_eq_testBit_streamNat hsw (by omega), hbit,
      shiftRight_mod_two_pow_succ]

end Sys2Proof.Machine

/-! SUPPORT. Instances share nothing (spec/20_memory.md R50, R61; spec/60_exceptions.md R196): from
`step_local`, what a step that answers a next state does to the instance it names, and the independence of
the others. -/

namespace Sys2Proof.Machine

variable {s t : State}

/-- A step that answers a next state puts some `b` in the place the host's act names, and so does a step on
the same act in every state with the same instance in that place. -/
theorem step_next_local {act : HostAct} {rest : List HostAct} (hh : s.host = act :: rest)
    (h : step s = .next t) :
    ∃ b, t = (s.setAgent act.target b).passTurn ∧
      ∀ (s' : State) (rest' : List HostAct), s'.host = act :: rest' →
        s'.agents[act.target]? = s.agents[act.target]? →
        step s' = .next (s'.setAgent act.target b).passTurn := by
  obtain ⟨f, hf⟩ := step_local act s.agents[act.target]?
  have hs := hf s rest hh rfl
  rw [h] at hs
  cases f with
  | next b => exact ⟨b, Host.Outcome.next.inj hs, hf⟩
  | fault _ => cases hs
  | refused _ => cases hs

/-- Settles O48: by `step_next_local` the two states end with the same instance in the place the act
names, and nothing is put elsewhere. -/
theorem instancesShareNothing : Obligations.InstancesShareNothing := by
  unfold Obligations.InstancesShareNothing
  intro s₁ s₂ t₁ act rest₁ rest₂ hh₁ hh₂ hsame h
  obtain ⟨b, rfl, hlocal⟩ := step_next_local hh₁ h
  refine ⟨fun j hj => List.getElem?_set_ne hj.symm, _, hlocal s₂ rest₂ hh₂ hsame.symm, ?_⟩
  simp only [State.passTurn_agents, State.setAgent_agents, List.getElem?_set_self', hsame]

/-- Two acts on different instances can be taken in the other order, to the same state (R196). -/
theorem step_step_swap {x y : HostAct} {rest : List HostAct} (hne : x.target ≠ y.target)
    (h : ∃ m, step { s with host := x :: y :: rest } = .next m ∧ step m = .next t) :
    ∃ m, step { s with host := y :: x :: rest } = .next m ∧ step m = .next t := by
  obtain ⟨m, hx, hy⟩ := h
  obtain ⟨b₁, rfl, hxlocal⟩ := step_next_local (act := x) rfl hx
  obtain ⟨b₂, rfl, hylocal⟩ := step_next_local (act := y) (rest := rest) rfl hy
  refine ⟨_, hylocal _ (x :: rest) rfl (List.getElem?_set_ne hne).symm, ?_⟩
  rw [hxlocal _ rest rfl (List.getElem?_set_ne hne.symm)]
  simp only [State.setAgent, State.passTurn, List.set_comm _ _ hne, List.tail_cons]

/-- Settles O47, by `step_step_swap` from either order. -/
theorem interleavingIrrelevant : Obligations.InterleavingIrrelevant := by
  unfold Obligations.InterleavingIrrelevant
  exact fun s t x y rest hne => ⟨step_step_swap hne, step_step_swap hne.symm⟩

end Sys2Proof.Machine

/-! SUPPORT. A host that issues commands one at a time (`State.perform`): the encoded command is the one the
step fetches, and a command that completes leaves what `State.answered` says. Two `flush`es in a row
(spec/40_packer.md R106). -/

namespace Sys2Proof.Machine

variable {s : State} {a : Agent} {p : Packer} {k : Nat} {i : Instr} {regs : Regs} {r : Response}

/-! ### A command decodes from its encoding -/

theorem toNat_ofNat_6 {width : Nat} (h : decide (width < 64) = true) : (BitVec.ofNat 6 width).toNat = width :=
  (BitVec.toNat_ofNat width 6).trans (Nat.mod_eq_of_lt (of_decide_eq_true h))

/-- The header that the first word of a command's encoding decodes to says, with the words after it, the
command (R72, R76, R86). -/
theorem encode_header (hi : i.wellFormed = true) :
    ∃ cw ws hd, encode i = cw :: ws ∧ decodeHeader cw = .ok hd ∧ hd.kind = i.kind ∧
      hd.symbolWords = ws.length ∧ hd.toInstr ws = i := by
  cases i with
  | push value width =>
    obtain ⟨hvalue, hwidth⟩ := Bool.and_eq_true_iff.1 hi
    refine ⟨_, [], .push value width, rfl, ?_, rfl, rfl, rfl⟩
    rw [decodeHeader_header]
    simp [decodeFields, toInt_ofInt_48 (of_decide_eq_true hvalue), toNat_ofNat_6 hwidth]
  | flush => exact ⟨_, [], .flush, rfl, by rw [decodeHeader_header]; simp [decodeFields], rfl, rfl, rfl⟩
  | load input =>
    refine ⟨_, input, .load input.length, rfl, ?_, rfl, rfl, rfl⟩
    have hlen := toInt_ofNat_48 (of_decide_eq_true hi)
    rw [decodeHeader_header]
    simp only [decodeFields, hlen]
    simp
  | pop width =>
    refine ⟨_, [], .pop width, rfl, ?_, rfl, rfl, rfl⟩
    rw [decodeHeader_header]
    simp [decodeFields, toNat_ofNat_6 hi]
  | offset skip =>
    refine ⟨_, [], .offset skip, rfl, ?_, rfl, rfl, rfl⟩
    rw [decodeHeader_header]
    simp [decodeFields, toInt_ofInt_48 (of_decide_eq_true hi)]

/-- At a port of its own kind of unit a command decodes from its encoding, whatever words follow (R87). -/
theorem decodeAt_encode (hi : i.wellFormed = true) (rest : List Word) :
    decodeAt i.kind (encode i ++ rest) = .instr i rest := by
  obtain ⟨cw, ws, hd, henc, hcw, hkind, hlen, hinstr⟩ := encode_header hi
  have hroom : hd.symbolWords ≤ (ws ++ rest).length := by rw [hlen, List.length_append]; omega
  simp only [henc, List.cons_append, decodeAt, decode, hcw, if_pos hkind, if_pos hroom]
  rw [hlen, List.take_left, List.drop_left, hinstr]

/-! ### One command issued by the host -/

/-- An instance with words presented at its port, before what waits there. -/
def Agent.presented (a : Agent) (ws : List Word) : Agent := { a with cmdPort := ws ++ a.cmdPort }

@[simp] theorem Agent.presented_cfg (ws : List Word) : (a.presented ws).cfg = a.cfg := rfl
@[simp] theorem Agent.presented_regs (ws : List Word) : (a.presented ws).regs = a.regs := rfl
@[simp] theorem Agent.presented_kind (ws : List Word) : (a.presented ws).kind = a.kind := rfl
@[simp] theorem Agent.presented_cmdPort (ws : List Word) : (a.presented ws).cmdPort = ws ++ a.cmdPort := rfl

/-- Presenting a command to instance `k`, which is `a`, touches that instance alone. -/
theorem State.presentNext_agents_eq_set (hk : s.agents[k]? = some a) (ws : List Word) :
    (s.presentNext k ws).agents = s.agents.set k (a.presented ws) := by
  rw [State.presentNext_agents, List.modify_eq_set_getElem?, hk]
  rfl

theorem State.presentNext_active (hk : s.agents[k]? = some a) (ws : List Word) :
    (s.presentNext k ws).active = some (k, a.presented ws) := by
  refine State.active_eq_some.2 ⟨⟨s.host, rfl⟩, ?_⟩
  rw [State.presentNext_agents_eq_set hk, List.getElem?_set_self (List.getElem?_eq_some_iff.1 hk).1]

/-- The step after a command is issued to a unit of its kind runs that command (R222). -/
theorem step_presentNext (hk : s.agents[k]? = some a) (hc : ConfigOK a.cfg) (hi : i.wellFormed = true)
    (hkind : i.kind = a.kind) :
    step (s.presentNext k (encode i)) = exec i (s.presentNext k (encode i)) := by
  have hfetch : (s.presentNext k (encode i)).fetch = .instr i := by
    rw [State.fetch_command (State.presentNext_active hk _) hc, fetchAt, Agent.presented_kind,
      Agent.presented_cmdPort, ← hkind, decodeAt_encode hi]
  simp only [step, hfetch]

/-- Completing a command that was just issued takes its words off the port again, so that of the whole
machine only the registers and the responses of the instance are new. -/
theorem State.complete_presentNext (hk : s.agents[k]? = some a) (regs : Regs) (r : Response) :
    (s.presentNext k (encode i)).complete k (a.presented (encode i)) i.wordCount regs r =
      s.answered k a regs [r] := by
  have hport : (encode i ++ a.cmdPort).drop i.wordCount = a.cmdPort := List.drop_left' (encode_length i)
  simp only [State.complete, State.setAgent, State.passTurn, State.presentNext_agents_eq_set hk,
    State.presentNext_host, List.set_set, List.tail_cons, Agent.respond, Agent.presented, hport,
    State.answered]

/-- A command issued to a unit of its kind that completes with `regs` and `r` leaves the machine so
answered for the commands after it. -/
theorem State.perform_cons {is : List Instr} (hk : s.agents[k]? = some a) (hc : ConfigOK a.cfg)
    (hi : i.wellFormed = true) (hkind : i.kind = a.kind)
    (hexec : exec i (s.presentNext k (encode i)) =
      .next ((s.presentNext k (encode i)).complete k (a.presented (encode i)) i.wordCount regs r)) :
    s.perform k (i :: is) = (s.answered k a regs [r]).perform k is := by
  rw [State.perform, step_presentNext hk hc hi hkind, hexec, State.complete_presentNext hk]

/-! ### What `State.answered` leaves -/

/-- An instance after it has given these responses and been left with these registers. -/
def Agent.answered (a : Agent) (regs : Regs) (rs : List Response) : Agent :=
  { a with regs := regs, respPort := a.respPort ++ rs }

@[simp] theorem Agent.answered_cfg (rs : List Response) : (a.answered regs rs).cfg = a.cfg := rfl
@[simp] theorem Agent.answered_regs (rs : List Response) : (a.answered regs rs).regs = regs := rfl

theorem State.answered_agent (hk : s.agents[k]? = some a) (regs : Regs) (rs : List Response) :
    (s.answered k a regs rs).agents[k]? = some (a.answered regs rs) :=
  List.getElem?_set_self (List.getElem?_eq_some_iff.1 hk).1

/-- Of two commands one after the other the later registers stay, and both responses. -/
theorem State.answered_answered (regs regs' : Regs) (rs rs' : List Response) :
    (s.answered k a regs rs).answered k (a.answered regs rs) regs' rs' = s.answered k a regs' (rs ++ rs') := by
  simp only [State.answered, Agent.answered, State.setAgent, List.set_set, List.append_assoc]

/-! ### Issuing `flush` -/

/-- A `flush` issued to a PACKER hands out `Packer.flushed` and leaves the registers of reset (R105). -/
theorem State.perform_flush {is : List Instr} (hk : s.agents[k]? = some a) (hc : ConfigOK a.cfg)
    (hp : a.regs = .packer p) :
    s.perform k (.flush :: is) =
      (s.answered k a (.packer (Packer.reset a.cfg)) [.symbols (p.flushed a.cfg)]).perform k is :=
  State.perform_cons hk hc rfl (Agent.kind_of_packer hp).symm
    (State.onPacker_packer (State.presentNext_active hk _) hc hp Packer.flush)

/-- At a symbol boundary, and so after reset, a `flush` hands out the queue alone (R106 (b)). -/
theorem Packer.flushed_of_boundary {c : Cfg} (h : p.slot = c.sw) : p.flushed c = p.pend := by
  simp [Packer.flushed, Packer.partialPending, h]

/-- Settles O16: the first `flush` leaves the registers of reset, whose queue is empty and whose symbol
boundary is the second's. -/
theorem flushTwiceIsEmpty : Obligations.FlushTwiceIsEmpty := by
  unfold Obligations.FlushTwiceIsEmpty
  intro s k a p hk hc hp
  refine ⟨p.flushed a.cfg, ?_, Packer.flushed_of_boundary⟩
  have hempty : (Packer.reset a.cfg).flushed a.cfg = [] := Packer.flushed_of_boundary rfl
  have hsecond := State.perform_flush (is := [])
    (State.answered_agent hk (.packer (Packer.reset a.cfg)) [.symbols (p.flushed a.cfg)]) hc rfl
  rw [State.perform_flush hk hc hp, hsecond, Agent.answered_cfg, hempty, State.answered_answered]
  rfl

end Sys2Proof.Machine

/-! SUPPORT. Decoding and encoding are inverse, and the legal command words are the rows of the opcode map
(spec/30_encoding.md R71 to R81, R86). What the step does with the words at a port: a command of the unit, one
of the other unit (R87), an illegal encoding (R79), part of a `LOAD`. The rejections of `load` (R120), and what
the host's adapter sends (spec/60_exceptions.md R191). -/

namespace Sys2Proof.Machine

variable {s : State} {a : Agent} {k n : Nat} {i : Instr} {hd : Header} {kind : UnitKind}
  {why : IllegalReason} {cw : Word} {ws rest input : List Word}

/-! ### From words to a command and back -/

/-- Settles O1: a command decodes at a port of its own kind of unit (`decodeAt_encode`), so it decodes. -/
theorem decodeOfEncode : Obligations.DecodeOfEncode := by
  unfold Obligations.DecodeOfEncode
  intro i rest hi
  exact decode_of_decodeAt (decodeAt_encode hi rest)

/-- What decodes to a command is a legal command word, the symbol words it asks for, and the words left
over (R76, R86). -/
theorem decode_eq_instr (h : decode ws = .instr i rest) :
    ∃ cw input hd, ws = cw :: input ++ rest ∧ decodeHeader cw = .ok hd ∧
      input.length = hd.symbolWords ∧ i = hd.toInstr input := by
  unfold decode at h
  split at h
  · cases h
  · next cw ws =>
    split at h
    · cases h
    · next hd hcw =>
      split at h
      · next hle =>
        cases h
        exact ⟨cw, ws.take hd.symbolWords, hd, by simp, hcw, List.length_take_of_le hle, rfl⟩
      · cases h

/-- A word with `RSV = 0` and these fields is the command word that the encoder writes of them. -/
theorem header_eq_of_fields {op : BitVec 3} {width : BitVec 6} {opnd : BitVec 48} (hrsv : rsvField cw = 0)
    (hop : opField cw = op) (hwidth : widthField cw = width) (hopnd : opndField cw = opnd) :
    header op width opnd = cw := by
  rw [← hop, ← hwidth, ← hopnd, header_fields cw hrsv]

/-- The encoder writes the integer operand of a word back into `OPND` (R73). -/
theorem opndField_eq_ofInt (cw : Word) : opndField cw = BitVec.ofInt 48 (intOperand cw) :=
  BitVec.ofInt_toInt.symm

/-- The encoder writes the width operand of a word back into `WIDTH` (R74). -/
theorem widthField_eq_ofNat (cw : Word) : widthField cw = BitVec.ofNat 6 (widthOperand cw) := by
  simp [widthOperand]

/-- The encoder writes a symbol count that is not negative back into `OPND` (R76). -/
theorem opndField_eq_ofNat (h : 0 ≤ intOperand cw) :
    opndField cw = BitVec.ofNat 48 (intOperand cw).toNat := by
  rw [← BitVec.ofInt_natCast, Int.toNat_of_nonneg h, ← opndField_eq_ofInt]

/-- A legal command word with as many symbol words as it asks for is the encoding of its command. -/
theorem encode_toInstr (h : decodeHeader cw = .ok hd) (hlen : input.length = hd.symbolWords) :
    encode (hd.toInstr input) = cw :: input := by
  have hnil (h0 : hd.symbolWords = 0) : input = [] := List.eq_nil_of_length_eq_zero (hlen.trans h0)
  obtain ⟨hrsv, ⟨hop, rfl⟩ | ⟨hop, hw, ho, rfl⟩ | ⟨hop, hw, hnonneg, rfl⟩ | ⟨hop, ho, rfl⟩ | ⟨hop, hw, rfl⟩⟩ :=
    decodeHeader_ok h
  · rw [hnil rfl]
    exact congrArg ([·]) (header_eq_of_fields hrsv hop (widthField_eq_ofNat cw) (opndField_eq_ofInt cw))
  · rw [hnil rfl]
    exact congrArg ([·]) (header_eq_of_fields hrsv hop hw ho)
  · change input.length = (intOperand cw).toNat at hlen
    exact congrArg (· :: input) (header_eq_of_fields hrsv hop hw (hlen ▸ opndField_eq_ofNat hnonneg))
  · rw [hnil rfl]
    exact congrArg ([·]) (header_eq_of_fields hrsv hop (widthField_eq_ofNat cw) ho)
  · rw [hnil rfl]
    exact congrArg ([·]) (header_eq_of_fields hrsv hop hw (opndField_eq_ofInt cw))

/-- Settles O2: the words are a legal command word, its symbol words and the words left over, and the first
two are the command's encoding. -/
theorem encodeOfDecode : Obligations.EncodeOfDecode := by
  unfold Obligations.EncodeOfDecode
  intro ws i rest h
  obtain ⟨cw, input, hd, hws, hcw, hlen, rfl⟩ := decode_eq_instr h
  exact ⟨decode_wellFormed h, by rw [hws, encode_toInstr hcw hlen]⟩

/-- Settles O6: each run of words is decoded. -/
theorem specWordsDecode : Obligations.SpecWordsDecode := by
  unfold Obligations.SpecWordsDecode
  decide

/-! ### The opcode map (R81) -/

/-- Rows of the map whose patterns agree wherever both masks look are the same row. -/
theorem opRows_eq_of_patterns_agree : ∀ r₁ ∈ opRows, ∀ r₂ ∈ opRows,
    r₁.pattern &&& r₂.mask = r₂.pattern &&& r₁.mask → r₁ = r₂ := by
  decide

/-- Settles O3: a word that selects two rows shows both patterns where both masks look, and there two
different rows differ. -/
theorem opcodeRowsDisjoint : Obligations.OpcodeRowsDisjoint := by
  unfold Obligations.OpcodeRowsDisjoint
  intro cw r₁ r₂ h₁ h₂ hsel₁ hsel₂
  refine opRows_eq_of_patterns_agree r₁ h₁ r₂ h₂ ?_
  rw [← eq_of_beq hsel₁, ← eq_of_beq hsel₂, BitVec.and_assoc, BitVec.and_assoc,
    BitVec.and_comm r₁.mask]

/-- Two words are equal if their four fields are (R71). -/
theorem word_eq_iff_fields {x y : Word} :
    x = y ↔ opField x = opField y ∧ widthField x = widthField y ∧ rsvField x = rsvField y ∧
      opndField x = opndField y := by
  constructor
  · rintro rfl; exact ⟨rfl, rfl, rfl, rfl⟩
  · rintro ⟨hop, hwidth, hrsv, hopnd⟩
    have hx := x.isLt
    have hy := y.isLt
    apply BitVec.eq_of_toNat_eq
    simp only [opField, widthField, rsvField, opndField, BitVec.toNat_eq, BitVec.extractLsb'_toNat,
      Nat.shiftRight_eq_div_pow] at hop hwidth hrsv hopnd
    omega

/-- A row is selected field by field. -/
theorem OpRow.selects_iff_fields {r : OpRow} :
    r.selects cw = true ↔
      opField cw &&& opField r.mask = opField r.pattern ∧
      widthField cw &&& widthField r.mask = widthField r.pattern ∧
      rsvField cw &&& rsvField r.mask = rsvField r.pattern ∧
      opndField cw &&& opndField r.mask = opndField r.pattern := by
  rw [OpRow.selects, beq_iff_eq, word_eq_iff_fields]
  simp only [opField, widthField, rsvField, opndField, BitVec.extractLsb'_and]

/-- The fields that each row of the map asks for (R81). -/
theorem exists_row_selected_iff {P : OpRow → Prop} :
    (∃ r ∈ opRows, r.selects cw = true ∧ P r) ↔
      rsvField cw = 0 ∧
        ((opField cw = 0 ∧ P opRows[0]) ∨
         (opField cw = 1 ∧ widthField cw = 0 ∧ opndField cw = 0 ∧ P opRows[1]) ∨
         (opField cw = 2 ∧ widthField cw = 0 ∧ P opRows[2]) ∨
         (opField cw = 3 ∧ opndField cw = 0 ∧ P opRows[3]) ∨
         (opField cw = 4 ∧ widthField cw = 0 ∧ P opRows[4])) := by
  have hop (x : BitVec 3) : x &&& 7#3 = x := BitVec.and_allOnes
  have hwidth (x : BitVec 6) : x &&& 63#6 = x := BitVec.and_allOnes
  have hrsv (x : BitVec 7) : x &&& 127#7 = x := BitVec.and_allOnes
  have hopnd (x : BitVec 48) : x &&& 281474976710655#48 = x := BitVec.and_allOnes
  by_cases h : rsvField cw = 0 <;>
    simp_all [opRows, OpRow.selects_iff_fields, opField, widthField, rsvField, opndField, and_assoc]

/-- The legal command words, field by field (R72, R79 but for its case (b)). -/
theorem decodeHeader_eq_ok :
    decodeHeader cw = .ok hd ↔
      rsvField cw = 0 ∧
        ((opField cw = 0 ∧ hd = .push (intOperand cw) (widthOperand cw)) ∨
         (opField cw = 1 ∧ widthField cw = 0 ∧ opndField cw = 0 ∧ hd = .flush) ∨
         (opField cw = 2 ∧ widthField cw = 0 ∧ 0 ≤ intOperand cw ∧ hd = .load (intOperand cw).toNat) ∨
         (opField cw = 3 ∧ opndField cw = 0 ∧ hd = .pop (widthOperand cw)) ∨
         (opField cw = 4 ∧ widthField cw = 0 ∧ hd = .offset (intOperand cw))) := by
  refine ⟨decodeHeader_ok, ?_⟩
  rintro ⟨hrsv, ⟨hop, rfl⟩ | ⟨hop, hw, ho, rfl⟩ | ⟨hop, hw, hnonneg, rfl⟩ | ⟨hop, ho, rfl⟩ | ⟨hop, hw, rfl⟩⟩ <;>
    simp_all [decodeHeader, decodeFields, intOperand, widthOperand]

/-- Settles O4: what the decoder and what the map ask of the fields is the same but for the symbol count of
`LOAD`, row for row. -/
theorem legalWordsAreTheRows : Obligations.LegalWordsAreTheRows := by
  unfold Obligations.LegalWordsAreTheRows
  intro cw
  constructor
  · rw [exists_row_selected_iff]
    simp only [decodeHeader_eq_ok, exists_and_left, exists_or, exists_eq, opRows]
    simp
  · intro hd h
    rw [exists_row_selected_iff]
    obtain ⟨hrsv, ⟨hop, rfl⟩ | ⟨hop, hw, ho, rfl⟩ | ⟨hop, hw, -, rfl⟩ | ⟨hop, ho, rfl⟩ | ⟨hop, hw, rfl⟩⟩ :=
      decodeHeader_ok h
    · exact ⟨hrsv, .inl ⟨hop, rfl, rfl⟩⟩
    · exact ⟨hrsv, .inr (.inl ⟨hop, hw, ho, rfl, rfl⟩)⟩
    · exact ⟨hrsv, .inr (.inr (.inl ⟨hop, hw, rfl, rfl⟩))⟩
    · exact ⟨hrsv, .inr (.inr (.inr (.inl ⟨hop, ho, rfl, rfl⟩)))⟩
    · exact ⟨hrsv, .inr (.inr (.inr (.inr ⟨hop, hw, rfl, rfl⟩)))⟩

/-! ### What a port holds, for its kind of unit (R79, R87) -/

theorem toInstr_kind (hd : Header) (input : List Word) : (hd.toInstr input).kind = hd.kind := by
  cases hd <;> rfl

/-- A legal command word whose operation its unit takes decodes at the port as it does anywhere. -/
theorem decodeAt_of_legal (h : decodeHeader cw = .ok hd) (hkind : hd.kind = kind) :
    decodeAt kind (cw :: ws) = decode (cw :: ws) := by
  simp only [decodeAt, h, if_pos hkind]

/-- A word that is no legal command word, or names the other unit's operation, is illegal at the port. -/
theorem decodeAt_of_not_legal (h : ¬ ∃ hd, decodeHeader cw = .ok hd ∧ hd.kind = kind) :
    ∃ why, decodeAt kind (cw :: ws) = .illegal why := by
  cases hcw : decodeHeader cw with
  | error why => exact ⟨why, by simp only [decodeAt, hcw]⟩
  | ok hd => exact ⟨.otherUnit, by simp only [decodeAt, hcw, if_neg fun hkind => h ⟨hd, hcw, hkind⟩]⟩

/-- A legal command word begins a whole command, or one not wholly presented (R76). -/
theorem decode_of_legal (h : decodeHeader cw = .ok hd) :
    (∃ i rest, decode (cw :: ws) = .instr i rest ∧ i.kind = hd.kind) ∨ decode (cw :: ws) = .incomplete := by
  by_cases hle : hd.symbolWords ≤ ws.length
  · exact .inl ⟨hd.toInstr (ws.take hd.symbolWords), ws.drop hd.symbolWords,
      by simp only [decode, h, if_pos hle], toInstr_kind hd _⟩
  · exact .inr (by simp only [decode, h, if_neg hle])

/-- What decodes to a command decodes to it at a port of its unit. -/
theorem decodeAt_of_decode (h : decode ws = .instr i rest) (hkind : i.kind = kind) :
    decodeAt kind ws = .instr i rest := by
  obtain ⟨cw, input, hd, hws, hcw, -, rfl⟩ := decode_eq_instr h
  rw [← h, hws]
  exact decodeAt_of_legal hcw ((toInstr_kind hd input).symm.trans hkind)

/-- What decodes to a command is an illegal encoding at a port of the other unit (R79 (b), R87). -/
theorem decodeAt_of_decode_of_kind_ne (h : decode ws = .instr i rest) (hkind : i.kind ≠ kind) :
    ∃ why, decodeAt kind ws = .illegal why := by
  obtain ⟨cw, input, hd, rfl, hcw, -, rfl⟩ := decode_eq_instr h
  rw [toInstr_kind] at hkind
  refine decodeAt_of_not_legal ?_
  rintro ⟨hd', hcw', hkind'⟩
  cases hcw.symm.trans hcw'
  exact hkind hkind'

/-- Only a `LOAD` can be presented in part, so it waits at the port of an UNPACKER (R76). -/
theorem decodeAt_of_decode_incomplete (h : decode ws = .incomplete) : decodeAt .unpacker ws = .incomplete := by
  rw [← h]
  unfold decode at h
  split at h
  · cases h
  · split at h
    · cases h
    · next hd hcw =>
      split at h
      · cases h
      · next hle =>
        refine decodeAt_of_legal hcw ?_
        cases hd with
        | load len => rfl
        | push value width => exact absurd (Nat.zero_le _) hle
        | flush => exact absurd (Nat.zero_le _) hle
        | pop width => exact absurd (Nat.zero_le _) hle
        | offset skip => exact absurd (Nat.zero_le _) hle

/-! ### The step on what stands at the active port -/

theorem step_of_decodeAt_instr (hs : s.active = some (k, a)) (hc : ConfigOK a.cfg)
    (h : decodeAt a.kind a.cmdPort = .instr i rest) : step s = exec i s := by
  simp only [step, State.fetch_command hs hc, fetchAt, h]

theorem step_of_decodeAt_illegal (hs : s.active = some (k, a)) (hc : ConfigOK a.cfg)
    (h : decodeAt a.kind a.cmdPort = .illegal why) : step s = .next (s.reject k a 1 .eIllegal) := by
  simp only [step, State.fetch_command hs hc, fetchAt, h]

theorem step_of_decodeAt_incomplete (hs : s.active = some (k, a)) (hc : ConfigOK a.cfg)
    (h : decodeAt a.kind a.cmdPort = .incomplete) : step s = .next s.passTurn := by
  simp only [step, State.fetch_command hs hc, fetchAt, h]

theorem step_of_cmdPort_nil (hs : s.active = some (k, a)) (hc : ConfigOK a.cfg) (h : a.cmdPort = []) :
    step s = .next s.passTurn := by
  simp only [step, State.fetch_command hs hc, fetchAt, h, decodeAt]

/-- Settles O8: with no act the step fetches nothing; an empty port and a `LOAD` presented in part are
fetched as waiting. -/
theorem nothingPresentedNothingHappens : Obligations.NothingPresentedNothingHappens := by
  unfold Obligations.NothingPresentedNothingHappens
  intro s
  constructor
  · intro hh
    simp only [step, State.fetch, hh]
  · rintro k a hs hc (hport | ⟨hdec, hkind⟩)
    · exact step_of_cmdPort_nil hs hc hport
    · exact step_of_decodeAt_incomplete hs hc (hkind ▸ decodeAt_of_decode_incomplete hdec)

/-! ### Commands of the other unit (R87) -/

theorem State.onPacker_of_kind_ne (hs : s.active = some (k, a)) (hc : ConfigOK a.cfg) (h : .packer ≠ a.kind)
    (op : Cfg → Packer → UnitResult Packer) : s.onPacker n op = .next (s.reject k a 1 .eIllegal) := by
  cases hregs : a.regs with
  | packer p => exact absurd (Agent.kind_of_packer hregs).symm h
  | unpacker u => exact State.onPacker_unpacker hs hc hregs op

theorem State.onUnpacker_of_kind_ne (hs : s.active = some (k, a)) (hc : ConfigOK a.cfg)
    (h : .unpacker ≠ a.kind) (op : Cfg → Unpacker → UnitResult Unpacker) :
    s.onUnpacker n op = .next (s.reject k a 1 .eIllegal) := by
  cases hregs : a.regs with
  | packer p => exact State.onUnpacker_packer hs hc hregs op
  | unpacker u => exact absurd (Agent.kind_of_unpacker hregs).symm h

/-- Settles O25: each command is an operation of its own unit. -/
theorem otherUnitsCommandIllegal : Obligations.OtherUnitsCommandIllegal := by
  unfold Obligations.OtherUnitsCommandIllegal
  intro i s k a hs hc hkind
  cases i with
  | push value width => exact State.onPacker_of_kind_ne hs hc hkind _
  | flush => exact State.onPacker_of_kind_ne hs hc hkind _
  | load input => exact State.onUnpacker_of_kind_ne hs hc hkind _
  | pop width => exact State.onUnpacker_of_kind_ne hs hc hkind _
  | offset skip => exact State.onUnpacker_of_kind_ne hs hc hkind _

/-- Settles O7: a command of the port's unit is fetched; one of the other unit is fetched as illegal, which
is what `exec` of it answers. The words taken are the command's encoding. -/
theorem stepRunsDecodedCommand : Obligations.StepRunsDecodedCommand := by
  unfold Obligations.StepRunsDecodedCommand
  intro s k a i rest hs hc hdec
  constructor
  · by_cases hkind : i.kind = a.kind
    · exact step_of_decodeAt_instr hs hc (decodeAt_of_decode hdec hkind)
    · obtain ⟨why, hport⟩ := decodeAt_of_decode_of_kind_ne hdec hkind
      rw [step_of_decodeAt_illegal hs hc hport, otherUnitsCommandIllegal i s k a hs hc hkind]
  · rw [(encodeOfDecode _ _ _ hdec).2]
    exact List.drop_left' (encode_length i)

/-! ### The illegal encodings (R79) -/

theorem opField_toNat (cw : Word) : (opField cw).toNat = cw.toNat / 2 ^ 61 := by
  have h := cw.isLt
  simp only [opField, BitVec.extractLsb'_toNat, Nat.shiftRight_eq_div_pow]
  omega

theorem widthField_toNat (cw : Word) : (widthField cw).toNat = cw.toNat / 2 ^ 55 % 2 ^ 6 := by
  simp only [widthField, BitVec.extractLsb'_toNat, Nat.shiftRight_eq_div_pow]

theorem rsvField_toNat (cw : Word) : (rsvField cw).toNat = cw.toNat / 2 ^ 48 % 2 ^ 7 := by
  simp only [rsvField, BitVec.extractLsb'_toNat, Nat.shiftRight_eq_div_pow]

theorem opndField_toNat (cw : Word) : (opndField cw).toNat = cw.toNat % 2 ^ 48 := by
  simp only [opndField, BitVec.extractLsb'_toNat, Nat.shiftRight_eq_div_pow, pow_zero, Nat.div_one]

/-- An integer operand is not negative exactly when the top bit of `OPND` is clear (R73). -/
theorem intOperand_nonneg : 0 ≤ intOperand cw ↔ (opndField cw).toNat < 2 ^ 47 := by
  have h := (opndField cw).isLt
  rw [intOperand, BitVec.toInt_eq_toNat_cond]
  split <;> omega

/-- R79 (a) to (f), on the values of a word's fields at a port of a kind of unit. -/
abbrev IllegalFields (kind : UnitKind) (op width rsv opnd : Nat) : Prop :=
  5 ≤ op ∨ (kind = .packer ∧ 2 ≤ op) ∨ (kind = .unpacker ∧ op < 2) ∨ rsv ≠ 0 ∨
    ((op = 1 ∨ op = 2 ∨ op = 4) ∧ width ≠ 0) ∨ ((op = 1 ∨ op = 3) ∧ opnd ≠ 0) ∨ (op = 2 ∧ 2 ^ 47 ≤ opnd)

/-- The decoder takes exactly the words that are none of R79's cases. -/
theorem legal_iff_not_illegalFields :
    (∃ hd, decodeHeader cw = .ok hd ∧ hd.kind = kind) ↔
      ¬ IllegalFields kind (opField cw).toNat (widthField cw).toNat (rsvField cw).toNat
        (opndField cw).toNat := by
  simp only [decodeHeader_eq_ok, intOperand_nonneg, BitVec.toNat_eq]
  generalize (opField cw).toNat = op
  generalize (widthField cw).toNat = width
  generalize (rsvField cw).toNat = rsv
  generalize (opndField cw).toNat = opnd
  cases kind <;> simp [or_and_right, exists_or, Header.kind, IllegalFields, and_assoc] <;> omega

/-- Settles O5: the decoder takes exactly the words that meet none of the cases; the others are fetched as
illegal, and a legal word begins a command that runs or a `LOAD` that waits. -/
theorem illegalEncodingsRejected : Obligations.IllegalEncodingsRejected := by
  unfold Obligations.IllegalEncodingsRejected
  intro s k a cw ws hs hc hport
  have hlegal := legal_iff_not_illegalFields (cw := cw) (kind := a.kind)
  rw [opField_toNat, widthField_toNat, rsvField_toNat, opndField_toNat] at hlegal
  constructor
  · intro hill
    obtain ⟨why, hdec⟩ := decodeAt_of_not_legal (ws := ws) fun h => hlegal.1 h hill
    have hdrop : a.cmdPort.drop 1 = ws := by rw [hport]; rfl
    rw [step_of_decodeAt_illegal hs hc (hport ▸ hdec), ← hdrop]
    rfl
  · intro hleg
    obtain ⟨hd, hcw, hkind⟩ := hlegal.2 hleg
    have hat : decodeAt a.kind a.cmdPort = decode a.cmdPort := by rw [hport, decodeAt_of_legal hcw hkind]
    obtain ⟨i, rest, hdec, hi⟩ | hdec := decode_of_legal (ws := ws) hcw <;> rw [← hport] at hdec
    · exact .inl ⟨i, rest, hdec, hi.trans hkind, step_of_decodeAt_instr hs hc (hat.trans hdec)⟩
    · exact .inr ⟨hdec, step_of_decodeAt_incomplete hs hc (hat.trans hdec)⟩

/-! ### A `load` that is rejected (R120) -/

/-- The codes of R120's two checks, in order. -/
theorem loadCheck_eq_some {c : Cfg} {e : Status} :
    loadCheck c input = some e ↔
      (e = .eCapacity ∧ fits c.srcCap input.length = false) ∨
      (e = .eSymbol ∧ fits c.srcCap input.length = true ∧ ∃ x ∈ input, decodeSymbol c x = none) := by
  have hall : (input.all fun x => (decodeSymbol c x).isSome) = true ↔
      ¬ ∃ x ∈ input, decodeSymbol c x = none := by
    simp [Option.isSome_iff_ne_none]
  unfold loadCheck
  by_cases hfits : fits c.srcCap input.length = true
  · by_cases hbad : ∃ x ∈ input, decodeSymbol c x = none
    · rw [if_pos hfits, if_neg (fun h => hall.1 h hbad)]
      simp [hfits, hbad, @eq_comm _ _ e]
    · rw [if_pos hfits, if_pos (hall.2 hbad)]
      simp [hfits, hbad]
  · rw [if_neg hfits]
    simp [hfits, @eq_comm _ _ e]

/-- A word with a bit at or above `SYM_BITS` counts as one that `DEC` calls invalid (R77). -/
theorem decodeSymbol_of_not_isSymbol {c : Cfg} {x : SymWord} (h : ¬ IsSymbol c x) :
    decodeSymbol c x = none := if_neg h

/-- A `load` that fails a check is rejected with its code, all its words consumed (R76). -/
theorem exec_load_rejected {u : Unpacker} {e : Status} (hs : s.active = some (k, a)) (hc : ConfigOK a.cfg)
    (hu : a.regs = .unpacker u) (h : loadCheck a.cfg input = some e) :
    exec (.load input) s = .next (s.reject k a (1 + input.length) e) := by
  have hload := Unpacker.load_eq_rejected (u := u).2 h
  exact (State.onUnpacker_unpacker hs hc hu (Unpacker.load input)).trans (by rw [hload]; rfl)

/-- Settles O19: which check of `load` fails first. -/
theorem loadRejections : Obligations.LoadRejections := by
  unfold Obligations.LoadRejections
  intro s k a u input hs hc hu
  constructor
  · intro cap hcap hlt
    refine exec_load_rejected hs hc hu (loadCheck_eq_some.2 (.inl ⟨rfl, ?_⟩))
    rw [hcap]
    exact decide_eq_false (Nat.not_le.2 hlt)
  · rintro hfits ⟨x, hx, hbad⟩
    refine exec_load_rejected hs hc hu (loadCheck_eq_some.2 (.inr ⟨rfl, fits_eq_true.2 hfits, x, hx, ?_⟩))
    obtain hnone | hbits := hbad
    · exact hnone
    · exact decodeSymbol_of_not_isSymbol (Nat.not_lt.2 hbits)

/-! ### The adapter (spec/60_exceptions.md R191) -/

/-- A `push` is sent exactly where both operands are integers the command word can carry. -/
theorem adaptPush_eq_send {value width : CallOperand} :
    adaptPush value width = .send i ↔
      ∃ v w, value = .int v ∧ width = .int w ∧ 0 ≤ w ∧ w ≤ 63 ∧ InOpndRange v ∧ i = .push v w.toNat := by
  cases width with
  | notAnInteger => simp [adaptPush]
  | int w =>
    cases value with
    | notAnInteger => simp only [adaptPush]; split <;> simp
    | int v =>
      simp only [adaptPush]
      split_ifs <;> grind

theorem adaptPop_eq_send {width : CallOperand} :
    adaptPop width = .send i ↔ ∃ w, width = .int w ∧ 0 ≤ w ∧ w ≤ 63 ∧ i = .pop w.toNat := by
  cases width with
  | notAnInteger => simp [adaptPop]
  | int w =>
    simp only [adaptPop]
    split_ifs <;> grind

theorem adaptOffset_eq_send {skip : CallOperand} :
    adaptOffset skip = .send i ↔ ∃ v, skip = .int v ∧ InOpndRange v ∧ i = .offset v := by
  cases skip with
  | notAnInteger => simp [adaptOffset]
  | int v =>
    simp only [adaptOffset]
    split_ifs <;> grind

theorem adaptLoad_eq_send {input : Option (List SymWord)} :
    adaptLoad input = .send i ↔ ∃ l, input = some l ∧ l.length < 2 ^ 47 ∧ i = .load l := by
  cases input with
  | none => simp [adaptLoad]
  | some l =>
    simp only [adaptLoad]
    split_ifs <;> grind

/-- What the adapter sends is a command the port can carry (R191). -/
theorem adapt_wellFormed {call : Call} (h : adapt call = .send i) : i.wellFormed = true := by
  cases call with
  | push value width =>
    obtain ⟨v, w, -, -, h0, h63, hv, rfl⟩ := adaptPush_eq_send.1 h
    exact Bool.and_eq_true_iff.2 ⟨decide_eq_true hv, decide_eq_true (by omega)⟩
  | flush => cases h; rfl
  | load input =>
    obtain ⟨l, -, hlen, rfl⟩ := adaptLoad_eq_send.1 h
    exact decide_eq_true hlen
  | pop width =>
    obtain ⟨w, -, h0, h63, rfl⟩ := adaptPop_eq_send.1 h
    exact decide_eq_true (by omega)
  | offset skip =>
    obtain ⟨v, -, hv, rfl⟩ := adaptOffset_eq_send.1 h
    exact decide_eq_true hv

theorem adapt_push_int {v w : Int} (hv : InOpndRange v) (h0 : 0 ≤ w) (h63 : w ≤ 63) :
    adapt (.push (.int v) (some (.int w))) = .send (.push v w.toNat) :=
  adaptPush_eq_send.2 ⟨v, w, rfl, rfl, h0, h63, hv, rfl⟩

/-- Settles O51: what is sent, by the four lemmas on the calls with operands; what fails, by the causes in the
adapter's order (log 19). -/
theorem adapterSendsOnlyCarried : Obligations.AdapterSendsOnlyCarried := by
  unfold Obligations.AdapterSendsOnlyCarried
  refine ⟨fun call i => adapt_wellFormed, ?_, fun v w => adapt_push_int, ?_, ?_, ?_, rfl, rfl, ?_, ?_, ?_⟩
  · intro skip i h
    obtain ⟨v, hv, -, rfl⟩ := (adaptOffset_eq_send (skip := .int skip)).1 h
    cases hv; rfl
  · intro v w h0 h63
    have hw : ¬ (w < 0 ∨ 63 < w) := by omega
    constructor
    · intro hv
      have hlow : ¬ v < -(2 ^ 47) := by omega
      simp only [adapt, Option.getD_some, adaptPush, if_neg hw, if_neg hlow, if_pos hv]
    · intro hv
      simp only [adapt, Option.getD_some, adaptPush, if_neg hw, if_pos hv]
  · intro skip hskip
    simp only [adapt, Option.getD_some, adaptOffset, if_pos hskip]
  · intro w hw
    exact if_pos (.inr hw)
  · intro width i h
    obtain ⟨v, w, hv, _⟩ := (adaptPush_eq_send (value := .notAnInteger)).1 h
    cases hv
  · intro value i h
    cases h
  · intro i h
    cases h

/-- Settles O52: the operand left out takes its default (R75); the two lines are read character by
character. -/
theorem pseudoInstructions : Obligations.PseudoInstructions := by
  unfold Obligations.PseudoInstructions
  exact ⟨fun value hvalue => adapt_push_int hvalue (by decide) (by decide), rfl, rfl, by decide, by decide⟩

end Sys2Proof.Machine

/-! SUPPORT. The PACKER's operations (spec/40_packer.md): the rejections of `push` (R100), its loop (R101) as
appending bits to a bit string whose whole symbols are in `PEND` and whose rest is in `ACC` (R102), the
symbol-emit FSM (R104), `flush` (R105), and what a host that issues accepted pushes leaves (R157, R218). -/

namespace Sys2Proof.Machine

variable {s : State} {a : Agent} {p : Packer} {c : Cfg} {k : Nat} {pend : List SymWord}

/-! ### The checks of `push` (R100) -/

/-- The codes of R100's four checks, in order. -/
theorem pushCheck_eq_some {value : Int} {width : Nat} {e : Status} :
    pushCheck c p value width = some e ↔
      (e = .eWidthRange ∧ ¬ WidthInRange width) ∨
      (WidthInRange width ∧
        ((e = .eUnsigned ∧ value < 0) ∨
         (e = .eWidthSmall ∧ 2 ^ width ≤ value) ∨
         (e = .eCapacity ∧ 0 ≤ value ∧ value < 2 ^ width ∧
            fits c.pendCap (p.pend.length + symbolsEmitted c p width) = false))) := by
  have hpow : (0 : Int) < 2 ^ width := Int.pow_pos two_pos
  unfold pushCheck
  by_cases hw : WidthInRange width
  · rw [if_neg (not_not.2 hw), or_iff_right fun h => h.2 hw, and_iff_right hw]
    by_cases hneg : value < 0
    · simp [hneg, not_le.2 (hneg.trans hpow), not_le.2 hneg, @eq_comm _ _ e]
    · by_cases hbig : 2 ^ width ≤ value
      · simp [hneg, hbig, not_lt.2 hbig, @eq_comm _ _ e]
      · simp [hneg, hbig, not_lt.1 hneg, not_le.1 hbig, @eq_comm _ _ e, and_comm]
  · rw [if_pos hw]
    simp [hw, @eq_comm _ _ e]

/-- A `push` that fails a check is rejected with its code. -/
theorem exec_push_rejected {value : Int} {width : Nat} {e : Status} (hs : s.active = some (k, a))
    (hc : ConfigOK a.cfg) (hp : a.regs = .packer p) (h : pushCheck a.cfg p value width = some e) :
    exec (.push value width) s = .next (s.reject k a 1 e) := by
  have hpush := Packer.push_eq_rejected.2 h
  exact (State.onPacker_packer hs hc hp (Packer.push value width)).trans (by rw [hpush]; rfl)

/-- Settles O11: which check of `push` fails first. -/
theorem pushRejections : Obligations.PushRejections := by
  unfold Obligations.PushRejections
  intro s k a p value width hs hc hp
  refine ⟨fun hw => ?range, fun h1 h32 hneg => ?unsigned, fun h1 h32 hbig => ?small,
    fun h1 h32 h0 hlt cap hcap hover => ?capacity⟩ <;>
    refine exec_push_rejected hs hc hp (pushCheck_eq_some.2 ?_)
  case range => exact .inl ⟨rfl, hw⟩
  case unsigned => exact .inr ⟨⟨h1, h32⟩, .inl ⟨rfl, hneg⟩⟩
  case small => exact .inr ⟨⟨h1, h32⟩, .inr (.inl ⟨rfl, hbig⟩)⟩
  case capacity =>
    have hfull : fits a.cfg.pendCap (p.pend.length + symbolsEmitted a.cfg p width) = false := by
      rw [hcap]
      exact decide_eq_false (Nat.not_le.2 hover)
    exact .inr ⟨⟨h1, h32⟩, .inr (.inr ⟨rfl, h0, hlt, hfull⟩)⟩

/-! ### `flush` (R105) -/

theorem Packer.flushed_eq (c : Cfg) (p : Packer) :
    p.flushed c = p.pend ++ if p.slot ≠ c.sw then [encodeSymbol c p.acc] else [] := by
  by_cases h : p.slot = c.sw
  · simp [Packer.flushed_of_boundary h, h]
  · simp [Packer.flushed, Packer.partialPending, h]

/-- Settles O14: `flush` has no check, and `Packer.flushed` is R105's `out`. -/
theorem flushReturnsAndResets : Obligations.FlushReturnsAndResets := by
  unfold Obligations.FlushReturnsAndResets
  intro s k a p hs hc hp
  rw [← Packer.flushed_eq]
  exact State.onPacker_packer hs hc hp Packer.flush

/-! ### A bit string cut into symbols (R102) -/

section BitString

variable {m r t n u : Nat}

/-- Bits appended to a bit string `n` do not change its bits above them. -/
theorem concatBits_shiftRight (hu : u < 2 ^ m) (r : Nat) : (n * 2 ^ m + u) >>> (r + m) = n >>> r := by
  rw [Nat.add_comm r m, Nat.shiftRight_add, Nat.shiftRight_eq_div_pow _ m,
    Nat.mul_comm, Nat.mul_add_div (Nat.two_pow_pos m), Nat.div_eq_of_lt hu, Nat.add_zero]

/-- The low bits of a bit string to which `m` bits have been appended. -/
theorem concatBits_mod (hu : u < 2 ^ m) (r : Nat) : (n * 2 ^ m + u) % 2 ^ (r + m) = n % 2 ^ r * 2 ^ m + u := by
  have hshift := concatBits_shiftRight (n := n) hu 0
  rw [Nat.zero_add, Nat.shiftRight_zero, Nat.shiftRight_eq_div_pow] at hshift
  rw [Nat.add_comm r m, pow_add, Nat.mod_mul, hshift, Nat.mul_comm n, Nat.mul_add_mod, Nat.mod_eq_of_lt hu,
    Nat.add_comm, Nat.mul_comm]

/-- The `m` low bits of `v` are their top `r` and the others (R101: the top `SLOT` of the `rem` bits). -/
theorem mod_two_pow_split (v : Nat) (hr : r ≤ m) :
    v % 2 ^ m = (v >>> (m - r)) % 2 ^ r * 2 ^ (m - r) + v % 2 ^ (m - r) := by
  conv_lhs => rw [← Nat.sub_add_cancel hr, pow_add, Nat.mod_mul]
  rw [Nat.shiftRight_eq_div_pow, Nat.add_comm, Nat.mul_comm]

/-- Symbol `j` of the bit string of `t` bits `n` (R102). -/
def symbolAt (c : Cfg) (t n j : Nat) : SymWord :=
  encodeSymbol c ((n >>> (t - (j + 1) * c.sw)) % 2 ^ c.sw)

/-- The whole symbols of the bit string of `t` bits `n` (R102). -/
def wholeSymbols (c : Cfg) (t n : Nat) : List SymWord := (List.range (t / c.sw)).map (symbolAt c t n)

@[simp] theorem wholeSymbols_length (c : Cfg) (t n : Nat) : (wholeSymbols c t n).length = t / c.sw := by
  simp [wholeSymbols]

@[simp] theorem wholeSymbols_zero (c : Cfg) (n : Nat) : wholeSymbols c 0 n = [] := by simp [wholeSymbols]

/-- Bits appended do not change the symbols that were whole before. -/
theorem map_symbolAt_concatBits (hu : u < 2 ^ m) :
    (List.range (t / c.sw)).map (symbolAt c (t + m) (n * 2 ^ m + u)) = wholeSymbols c t n := by
  refine List.map_congr_left fun j hj => ?_
  have hle : (j + 1) * c.sw ≤ t :=
    (Nat.mul_le_mul_right _ (List.mem_range.1 hj)).trans (Nat.div_mul_le_self t c.sw)
  rw [symbolAt, symbolAt, Nat.sub_add_comm hle, concatBits_shiftRight hu]

/-- Bits that complete no symbol. -/
theorem wholeSymbols_append_of_lt (hu : u < 2 ^ m) (hm : t % c.sw + m < c.sw) :
    wholeSymbols c (t + m) (n * 2 ^ m + u) = wholeSymbols c t n := by
  have hdiv : (t + m) / c.sw = t / c.sw := by
    conv_lhs => rw [← Nat.div_add_mod t c.sw, Nat.add_assoc, Nat.mul_add_div (by omega), Nat.div_eq_of_lt hm,
      Nat.add_zero]
  rw [wholeSymbols, hdiv, map_symbolAt_concatBits hu]

/-- Bits that complete exactly one symbol. -/
theorem wholeSymbols_append_of_eq (hsw : 1 ≤ c.sw) (hu : u < 2 ^ m) (hm : t % c.sw + m = c.sw) :
    wholeSymbols c (t + m) (n * 2 ^ m + u) =
      wholeSymbols c t n ++ [encodeSymbol c (n % 2 ^ (t % c.sw) * 2 ^ m + u)] := by
  have hlen : t + m = (t / c.sw + 1) * c.sw := by
    have := Nat.div_add_mod t c.sw
    rw [Nat.succ_mul, Nat.mul_comm]; omega
  have hlast : (n * 2 ^ m + u) % 2 ^ c.sw = n % 2 ^ (t % c.sw) * 2 ^ m + u := by
    conv_lhs => rw [← hm, concatBits_mod hu]
  have hdiv : (t + m) / c.sw = t / c.sw + 1 := by rw [hlen, Nat.mul_div_cancel _ hsw]
  rw [wholeSymbols, hdiv, List.range_succ, List.map_append, map_symbolAt_concatBits hu, List.map_singleton,
    symbolAt, ← hlen, Nat.sub_self, Nat.shiftRight_zero, hlast]

end BitString

/-! ### The loop of R101 is the closed form of R102 -/

/-- The PACKER that had the queue `pend` at a symbol boundary and then took the `t` bits `n` (R102): the whole
symbols are in the queue, the `t mod SW` bits left over stand at the high end of `ACC`. -/
def Packer.ofBits (c : Cfg) (pend : List SymWord) (t n : Nat) : Packer :=
  { acc := (n % 2 ^ (t % c.sw)) <<< (c.sw - t % c.sw)
    slot := c.sw - t % c.sw
    pend := pend ++ wholeSymbols c t n }

section Bits

variable {f m t n v : Nat}

@[simp] theorem Packer.ofBits_acc :
    (Packer.ofBits c pend t n).acc = (n % 2 ^ (t % c.sw)) <<< (c.sw - t % c.sw) := rfl
@[simp] theorem Packer.ofBits_slot : (Packer.ofBits c pend t n).slot = c.sw - t % c.sw := rfl
@[simp] theorem Packer.ofBits_pend : (Packer.ofBits c pend t n).pend = pend ++ wholeSymbols c t n := rfl

/-- At a symbol boundary only the queue tells how the PACKER came there. -/
theorem Packer.ofBits_boundary (h : t % c.sw = 0) :
    Packer.ofBits c pend t n = Packer.ofBits c (pend ++ wholeSymbols c t n) 0 0 := by
  simp [Packer.ofBits, h, Nat.mod_one]

theorem Packer.reset_eq_ofBits (c : Cfg) : Packer.reset c = Packer.ofBits c [] 0 0 := by
  simp [Packer.ofBits, Packer.reset]

/-- Registers that meet the invariant hold `FILLED` bits of a symbol, `ACC >> SLOT` (R102's `f` and `A`). -/
theorem Packer.Inv.eq_ofBits (hp : p.Inv c) :
    p = Packer.ofBits c p.pend (c.sw - p.slot) (p.acc >>> p.slot) := by
  obtain ⟨h1, h2, hacc, hfree, -, -⟩ := hp
  have hmod : (c.sw - p.slot) % c.sw = c.sw - p.slot := Nat.mod_eq_of_lt (by omega)
  have hbits : p.acc >>> p.slot < 2 ^ (c.sw - p.slot) := by
    rwa [Nat.shiftRight_eq_div_pow, Nat.div_lt_iff_lt_mul (Nat.two_pow_pos _), ← pow_add, Nat.sub_add_cancel h2]
  have hback : (p.acc >>> p.slot) <<< p.slot = p.acc := by
    rw [Nat.shiftRight_eq_div_pow, Nat.shiftLeft_eq, Nat.div_mul_cancel (Nat.dvd_of_mod_eq_zero hfree)]
  have hwhole : wholeSymbols c (c.sw - p.slot) (p.acc >>> p.slot) = [] :=
    List.length_eq_zero_iff.1 (by rw [wholeSymbols_length, Nat.div_eq_of_lt (by omega)])
  rw [Packer.ofBits, hmod, Nat.mod_eq_of_lt hbits, Nat.sub_sub_self h2, hback, hwhole, List.append_nil]

/-- One turn of the loop of R101 appends the `SLOT` bits that complete a symbol. -/
theorem Packer.fillSymbol_ofBits (hsw : 1 ≤ c.sw) (hf : t % c.sw + f = c.sw) :
    (Packer.ofBits c pend t n).fillSymbol c v m =
      Packer.ofBits c pend (t + f) (n * 2 ^ f + (v >>> (m - f)) % 2 ^ f) := by
  have hmod : (t + f) % c.sw = 0 := by rw [← Nat.mod_add_mod, hf, Nat.mod_self]
  have hslot : c.sw - t % c.sw = f := by omega
  have hchunk := Nat.mod_lt (v >>> (m - f)) (Nat.two_pow_pos f)
  rw [Packer.ofBits_boundary hmod, wholeSymbols_append_of_eq hsw hchunk hf, ← Nat.shiftLeft_eq,
    Nat.shiftLeft_add_eq_or_of_lt hchunk]
  simp [Packer.ofBits, Packer.fillSymbol, Packer.pendAppend, hslot, List.append_assoc]

/-- The end of R101 appends the bits left, which complete no symbol. -/
theorem Packer.placeTail_ofBits (hf : t % c.sw + f = c.sw) (hm : m < f) :
    (Packer.ofBits c pend t n).placeTail v m = Packer.ofBits c pend (t + m) (n * 2 ^ m + v % 2 ^ m) := by
  obtain rfl | hpos := Nat.eq_zero_or_pos m
  · simp [Packer.placeTail, Nat.mod_one]
  have hrest : t % c.sw + m < c.sw := by omega
  have hmod : (t + m) % c.sw = t % c.sw + m := by rw [← Nat.mod_add_mod, Nat.mod_eq_of_lt hrest]
  have hslot : c.sw - t % c.sw = f := by omega
  have hslot' : c.sw - (t % c.sw + m) = f - m := by omega
  have htail := Nat.mod_lt v (Nat.two_pow_pos m)
  have hacc : (n % 2 ^ (t % c.sw)) <<< f ||| (v % 2 ^ m) <<< (f - m) =
      (n % 2 ^ (t % c.sw) * 2 ^ m + v % 2 ^ m) <<< (f - m) := by
    rw [← Nat.shiftLeft_eq, Nat.shiftLeft_add_eq_or_of_lt htail, Nat.shiftLeft_or_distrib, ← Nat.shiftLeft_add,
      Nat.add_sub_cancel' hm.le]
  simp only [Packer.placeTail, if_pos hpos, Packer.ofBits, hmod, hslot, hslot', hacc, concatBits_mod htail,
    wholeSymbols_append_of_lt htail hrest]

/-- The loop of R101 and its end append the `m` low bits of `v` to the bit string, by induction on the turns. -/
theorem Packer.appendBits_ofBits (hsw : 1 ≤ c.sw) (pend : List SymWord) (v fuel : Nat) :
    ∀ m t n, m < fuel →
      (Packer.ofBits c pend t n).appendBits c v fuel m = Packer.ofBits c pend (t + m) (n * 2 ^ m + v % 2 ^ m) := by
  induction fuel with
  | zero => exact fun m _ _ hfuel => absurd hfuel (Nat.not_lt_zero m)
  | succ fuel ih =>
    intro m t n hfuel
    have hlt := Nat.mod_lt t hsw
    obtain ⟨f, hf⟩ : ∃ f, t % c.sw + f = c.sw := ⟨_, Nat.add_sub_cancel' hlt.le⟩
    have hslot : (Packer.ofBits c pend t n).slot = f := by rw [Packer.ofBits_slot]; omega
    rw [Packer.appendBits, hslot]
    split
    · next hm =>
      have hbits : n * 2 ^ m + v % 2 ^ m =
          (n * 2 ^ f + (v >>> (m - f)) % 2 ^ f) * 2 ^ (m - f) + v % 2 ^ (m - f) := by
        rw [mod_two_pow_split v hm, Nat.add_mul, Nat.mul_assoc, ← pow_add, Nat.add_sub_cancel' hm, Nat.add_assoc]
      rw [Packer.fillSymbol_ofBits hsw hf, ih _ _ _ (by omega), hbits, Nat.add_assoc, Nat.add_sub_cancel' hm]
    · next hm => exact Packer.placeTail_ofBits hf (Nat.not_le.1 hm)

/-- A `push` on a bit string passes R100's last check if the longer bit string's symbols fit. -/
theorem Packer.length_add_symbolsEmitted_ofBits (hsw : 1 ≤ c.sw) (m : Nat) :
    (Packer.ofBits c pend t n).pend.length + symbolsEmitted c (Packer.ofBits c pend t n) m =
      pend.length + (t + m) / c.sw := by
  have hlt := Nat.mod_lt t hsw
  have hdiv : (t + m) / c.sw = t / c.sw + (t % c.sw + m) / c.sw := by
    conv_lhs => rw [← Nat.div_add_mod t c.sw, Nat.add_assoc, Nat.mul_add_div hsw]
  rw [symbolsEmitted, Packer.ofBits_slot, Nat.sub_sub_self hlt.le, Packer.ofBits_pend, List.length_append,
    wholeSymbols_length, hdiv, Nat.add_assoc]

end Bits

/-! ### An accepted `push` -/

/-- A `push` that passes the checks completes with the registers of the loop of R101. -/
theorem exec_push_accepted {value : Int} {width : Nat} (hs : s.active = some (k, a))
    (hc : ConfigOK a.cfg) (hp : a.regs = .packer p) (h : pushCheck a.cfg p value width = none) :
    exec (.push value width) s =
      .next (s.complete k a 1 (.packer (p.appendBits a.cfg value.toNat (pushFuel width) width)) .okay) := by
  have hpush := Packer.push_eq_done.2 ⟨h, rfl, rfl⟩
  exact (State.onPacker_packer hs hc hp (Packer.push value width)).trans (by rw [hpush]; rfl)

/-- Settles O12: the registers before are a bit string of `FILLED` bits, to which the loop appends `value`. -/
theorem pushAppendsClosedForm : Obligations.PushAppendsClosedForm := by
  unfold Obligations.PushAppendsClosedForm
  intro s k a p value width hs hc hp hinv h1 h32 h0 hlt hroom
  have hcheck : pushCheck a.cfg p value width = none :=
    pushCheck_eq_none.2 ⟨⟨h1, h32⟩, h0, hlt, fits_eq_true.2 hroom⟩
  have hloop := Packer.appendBits_ofBits hc.1 p.pend value.toNat (pushFuel width) width
    (a.cfg.sw - p.slot) (p.acc >>> p.slot) (Nat.lt_succ_self width)
  have hvalue : value.toNat % 2 ^ width = value.toNat := Nat.mod_eq_of_lt (by zify; omega)
  rw [← hinv.eq_ofBits, hvalue] at hloop
  rw [exec_push_accepted hs hc hp hcheck, hloop]
  rfl

/-! ### The symbol-emit FSM (R104) -/

/-- From `fill` the FSM takes one tick for each symbol and two more, and ends with the loop of R101 done. -/
theorem EmitFsm.run_fill {value : Int} {width : Nat} (hsw : 1 ≤ c.sw) (fuel : Nat) :
    ∀ (m : Nat) (p : Packer), m < fuel → 1 ≤ p.slot → p.slot ≤ c.sw →
      EmitFsm.run c value width (symbolsEmitted c p m + 2) { regs := p, phase := .fill m } =
        { regs := p.appendBits c value.toNat fuel m, phase := .idle .okay } := by
  induction fuel with
  | zero => exact fun m _ hfuel => absurd hfuel (Nat.not_lt_zero m)
  | succ fuel ih =>
    intro m p hfuel h1 h2
    unfold Packer.appendBits
    split
    · next hm =>
      have hrest := ih (m - p.slot) (p.fillSymbol c value.toNat m) (by omega) hsw le_rfl
      rw [← Packer.symbolsEmitted_fillSymbol (v := value.toNat) hsw h2 hm, ← hrest, Nat.add_right_comm,
        EmitFsm.run, EmitFsm.tick]
      simp only [if_pos hm]
    · next hm =>
      have hnone : symbolsEmitted c p m = 0 := Nat.div_eq_of_lt (by omega)
      simp [hnone, EmitFsm.run, EmitFsm.tick, hm]

/-- Settles O49: the first tick makes the checks, and from `fill` on the FSM runs the loop. -/
theorem emitFsmIsPush : Obligations.EmitFsmIsPush := by
  unfold Obligations.EmitFsmIsPush
  intro c p value width hc hp
  obtain ⟨h1, h2, -⟩ := hp
  constructor
  · intro e he
    simp only [EmitFsm.run, EmitFsm.tick, EmitFsm.start, Packer.push_eq_rejected.1 he]
  · intro p' r hdone
    obtain ⟨hcheck, rfl, rfl⟩ := Packer.push_eq_done.1 hdone
    have hfirst : (EmitFsm.start p).tick c value width = { regs := p, phase := .fill width } := by
      simp only [EmitFsm.tick, EmitFsm.start, hcheck]
    rw [EmitFsm.run, hfirst]
    exact EmitFsm.run_fill hc.1 (pushFuel width) width p (Nat.lt_succ_self width) h1 h2

/-! ### Pushes issued one after another (R157) -/

/-- The operands are those of a `push` that passes the first three checks of R100. -/
theorem push_wellFormed {x : Nat × Nat} (hx : 1 ≤ x.2 ∧ x.2 ≤ 32 ∧ x.1 < 2 ^ x.2) :
    (Instr.push x.1 x.2).wellFormed = true := by
  obtain ⟨-, h32, hlt⟩ := hx
  have hbound : x.1 < 2 ^ 32 := hlt.trans_le (Nat.pow_le_pow_right two_pos h32)
  simp only [Instr.wellFormed, Bool.and_eq_true, decide_eq_true_eq]
  omega

theorem State.answered_nil (hk : s.agents[k]? = some a) : s.answered k a a.regs [] = s := by
  simp [State.answered, State.setAgent, State.set_self hk]

/-- One legal `push` with room, issued to a PACKER that holds a bit string, appends its value to it. -/
theorem State.perform_push {x : Nat × Nat} {is : List Instr} {t n : Nat} (hk : s.agents[k]? = some a)
    (hc : ConfigOK a.cfg) (hp : a.regs = .packer (Packer.ofBits a.cfg pend t n))
    (hx : 1 ≤ x.2 ∧ x.2 ≤ 32 ∧ x.1 < 2 ^ x.2)
    (hroom : fits a.cfg.pendCap (pend.length + (t + x.2) / a.cfg.sw) = true) :
    s.perform k (.push x.1 x.2 :: is) =
      (s.answered k a (.packer (Packer.ofBits a.cfg pend (t + x.2) (n * 2 ^ x.2 + x.1))) [.okay]).perform k is := by
  obtain ⟨h1, h32, hlt⟩ := hx
  have hcheck : pushCheck a.cfg (Packer.ofBits a.cfg pend t n) x.1 x.2 = none := by
    rw [← Packer.length_add_symbolsEmitted_ofBits (n := n) hc.1] at hroom
    exact pushCheck_eq_none.2 ⟨⟨h1, h32⟩, Int.natCast_nonneg _, by exact_mod_cast hlt, hroom⟩
  have hexec := exec_push_accepted (State.presentNext_active hk (encode (.push x.1 x.2))) hc hp hcheck
  have hloop := Packer.appendBits_ofBits hc.1 pend x.1 (pushFuel x.2) x.2 t n (Nat.lt_succ_self _)
  rw [Nat.mod_eq_of_lt hlt] at hloop
  rw [Agent.presented_cfg, Int.toNat_natCast, hloop] at hexec
  exact State.perform_cons hk hc (push_wellFormed ⟨h1, h32, hlt⟩) (Agent.kind_of_packer hp).symm hexec

/-- Legal pushes with room, issued to a PACKER that holds a bit string, append their values to it (R157). -/
theorem State.perform_pushes (is : List Instr) : ∀ (pushes : List (Nat × Nat)) (s : State) (a : Agent) (t n : Nat),
    s.agents[k]? = some a → ConfigOK a.cfg → a.regs = .packer (Packer.ofBits a.cfg pend t n) →
    (∀ x ∈ pushes, 1 ≤ x.2 ∧ x.2 ≤ 32 ∧ x.1 < 2 ^ x.2) →
    fits a.cfg.pendCap (pend.length + (t + totalWidth pushes) / a.cfg.sw) = true →
    s.perform k ((pushes.map fun x => .push x.1 x.2) ++ is) =
      (s.answered k a
        (.packer (Packer.ofBits a.cfg pend (t + totalWidth pushes)
          (pushes.foldl (fun n x => n * 2 ^ x.2 + x.1) n)))
        (pushes.map fun _ => .okay)).perform k is
  | [], s, a, t, n, hk, _, hp, _, _ => by
    have hnil := State.answered_nil hk
    rw [hp] at hnil
    exact (congrArg (State.perform · k is) hnil).symm
  | x :: xs, s, a, t, n, hk, hc, hp, hlegal, hroom => by
    have htotal : t + totalWidth (x :: xs) = t + x.2 + totalWidth xs := by
      simp [totalWidth, Nat.add_assoc]
    rw [htotal] at hroom ⊢
    have hfirst : fits a.cfg.pendCap (pend.length + (t + x.2) / a.cfg.sw) = true :=
      fits_of_le hroom (Nat.add_le_add_left (Nat.div_le_div_right (Nat.le_add_right _ _)) _)
    rw [List.map_cons, List.cons_append,
      State.perform_push hk hc hp (hlegal x List.mem_cons_self) hfirst,
      State.perform_pushes is xs _ _ _ _ (State.answered_agent hk _ _) hc rfl
        (fun y hy => hlegal y (List.mem_cons_of_mem x hy)) hroom, State.answered_answered]
    rfl

/-- Legal pushes on a PACKER at a symbol boundary leave their concatenation in it, `B` of `T` bits (R157). -/
theorem State.perform_pushes_of_boundary {is : List Instr} {pushes : List (Nat × Nat)}
    (hk : s.agents[k]? = some a) (hc : ConfigOK a.cfg) (hp : a.regs = .packer (Packer.ofBits a.cfg pend 0 0))
    (hlegal : ∀ x ∈ pushes, 1 ≤ x.2 ∧ x.2 ≤ 32 ∧ x.1 < 2 ^ x.2)
    (hroom : fits a.cfg.pendCap (pend.length + totalWidth pushes / a.cfg.sw) = true) :
    s.perform k ((pushes.map fun x => .push x.1 x.2) ++ is) =
      (s.answered k a (.packer (Packer.ofBits a.cfg pend (totalWidth pushes) (concatValues pushes)))
        (pushes.map fun _ => .okay)).perform k is := by
  have h := State.perform_pushes is pushes s a 0 0 hk hc hp hlegal (by rwa [Nat.zero_add])
  rwa [Nat.zero_add] at h

/-! ### A `flush` between pushes (R218) -/

/-- The queue at the last symbol boundary comes out before the bits taken since. -/
theorem Packer.flushed_ofBits_queue (c : Cfg) (pend : List SymWord) (t n : Nat) :
    (Packer.ofBits c pend t n).flushed c = pend ++ (Packer.ofBits c [] t n).flushed c := by
  rw [Packer.flushed_eq, Packer.flushed_eq, Packer.ofBits_pend, Packer.ofBits_pend, List.nil_append,
    List.append_assoc]
  rfl

/-- Legal pushes on a PACKER at a symbol boundary and a `flush`: the queue comes out, then what a fresh PACKER
would hand out. -/
theorem State.perform_pushes_flush {is : List Instr} {pushes : List (Nat × Nat)}
    (hk : s.agents[k]? = some a) (hc : ConfigOK a.cfg) (hp : a.regs = .packer (Packer.ofBits a.cfg pend 0 0))
    (hlegal : ∀ x ∈ pushes, 1 ≤ x.2 ∧ x.2 ≤ 32 ∧ x.1 < 2 ^ x.2)
    (hroom : fits a.cfg.pendCap (pend.length + totalWidth pushes / a.cfg.sw) = true) :
    s.perform k ((pushes.map fun x => .push x.1 x.2) ++ .flush :: is) =
      (s.answered k a (.packer (Packer.reset a.cfg)) ((pushes.map fun _ => .okay) ++
        [.symbols (pend ++ (Packer.ofBits a.cfg [] (totalWidth pushes) (concatValues pushes)).flushed
          a.cfg)])).perform k is := by
  rw [State.perform_pushes_of_boundary hk hc hp hlegal hroom,
    State.perform_flush (State.answered_agent hk _ _) hc rfl, State.answered_answered, Agent.answered_cfg,
    Packer.flushed_ofBits_queue]

/-- Settles O46: at the boundary the PACKER differs from a fresh one in its queue alone, which is what the first
`flush` hands out, and which the one `flush` at the end hands out before what the second does. -/
theorem flushAtBoundaryTransparent : Obligations.FlushAtBoundaryTransparent := by
  unfold Obligations.FlushAtBoundaryTransparent
  intro s k a before after hk hc hcap hp hlegal hboundary push
  have hroom : ∀ n, fits a.cfg.pendCap n = true := fun n => by rw [hcap]; rfl
  have hbefore := fun x hx => hlegal x (List.mem_append_left after hx)
  have hafter := fun x hx => hlegal x (List.mem_append_right before hx)
  have hreset := Packer.reset_eq_ofBits a.cfg
  obtain ⟨queue, hqueue⟩ : ∃ queue, Packer.ofBits a.cfg [] (totalWidth before) (concatValues before) =
      Packer.ofBits a.cfg queue 0 0 := ⟨_, Packer.ofBits_boundary hboundary⟩
  have hfirst : (Packer.ofBits a.cfg queue 0 0).flushed a.cfg = queue := by
    rw [Packer.flushed_of_boundary (by simp), Packer.ofBits_pend, wholeSymbols_zero, List.append_nil]
  refine ⟨queue, (Packer.ofBits a.cfg [] (totalWidth after) (concatValues after)).flushed a.cfg, ?_, ?_⟩
  · rw [List.append_assoc, List.append_assoc, List.singleton_append,
      State.perform_pushes_flush hk hc (hp.trans (congrArg _ hreset)) hbefore (hroom _), hqueue, hfirst,
      State.perform_pushes_flush (State.answered_agent hk _ _) hc (congrArg _ hreset) hafter (hroom _),
      State.answered_answered, hp]
    simp only [State.perform, List.append_assoc, List.nil_append, Agent.answered_cfg]
  · rw [List.append_assoc, State.perform_pushes_of_boundary hk hc (hp.trans (congrArg _ hreset)) hbefore (hroom _),
      hqueue, State.perform_pushes_flush (State.answered_agent hk _ _) hc rfl hafter (hroom _),
      State.answered_answered, hp]
    simp only [State.perform, List.append_assoc, Agent.answered_cfg]

end Sys2Proof.Machine

/-! SUPPORT. The UNPACKER's operations (spec/41_unpacker.md): an accepted `load` (R120), the `pop`s that
extract nothing (R121), `offset` (R126), and the extract FSM (R124) as the loop of R122. -/

namespace Sys2Proof.Machine

variable {s : State} {a : Agent} {u x : Unpacker} {c : Cfg} {k n width : Nat}
  {op : Cfg → Unpacker → UnitResult Unpacker}

/-! ### How a command ends on the active UNPACKER -/

theorem State.onUnpacker_of_done {r : Response} (hs : s.active = some (k, a)) (hc : ConfigOK a.cfg)
    (hu : a.regs = .unpacker u) (h : op a.cfg u = .done x r) :
    s.onUnpacker n op = .next (s.complete k a n (.unpacker x) r) := by
  rw [State.onUnpacker_unpacker hs hc hu, h]; rfl

theorem State.onUnpacker_of_rejected {e : Status} (hs : s.active = some (k, a)) (hc : ConfigOK a.cfg)
    (hu : a.regs = .unpacker u) (h : op a.cfg u = .rejected e) :
    s.onUnpacker n op = .next (s.reject k a n e) := by
  rw [State.onUnpacker_unpacker hs hc hu, h]; rfl

/-! ### `load` (R120) -/

/-- Settles O18: both checks of `load` pass, and `Unpacker.loaded` is R120's state. -/
theorem loadReplacesSource : Obligations.LoadReplacesSource := by
  unfold Obligations.LoadReplacesSource
  intro s k a u input hs hc hu hcap hdec
  have hall : (input.all fun x => (decodeSymbol a.cfg x).isSome) = true :=
    List.all_eq_true.2 fun x hx => Option.isSome_iff_exists.2 (hdec x hx)
  have hcheck : loadCheck a.cfg input = none := loadCheck_eq_none.2 ⟨fits_eq_true.2 hcap, hall⟩
  exact State.onUnpacker_of_done hs hc hu (Unpacker.load_eq_done.2 ⟨hcheck, rfl, rfl⟩)

/-! ### `pop` without an extraction (R121) -/

/-- Settles O21: the check on `width` comes first, then `AVAIL = 0` answers null. -/
theorem popRejectionAndNull : Obligations.PopRejectionAndNull := by
  unfold Obligations.PopRejectionAndNull
  intro s k a u width hs hc hu
  constructor
  · intro hw
    exact State.onUnpacker_of_rejected hs hc hu (Unpacker.pop_eq_rejected.2 (popCheck_eq_some.2 ⟨rfl, hw⟩))
  · intro h1 h32 h0
    exact State.onUnpacker_of_done hs hc hu (Unpacker.pop_eq_done.2 ⟨⟨h1, h32⟩, .inl ⟨h0, rfl, rfl⟩⟩)

/-! ### `offset` (R126) -/

/-- The state after a seek, with `AVAIL` as the bits of the source beyond the new position. -/
theorem Unpacker.seek_eq (hsw : 1 ≤ c.sw) (u : Unpacker) (skip : Nat) :
    u.seek c skip =
      { src := u.src, idx := skip / c.sw, res := c.sw - skip % c.sw, avail := u.src.length * c.sw - skip } := by
  rw [Unpacker.seek, availOf_seek hsw]; rfl

/-- Settles O23: the sign of `skip` decides, and R30's `AVAIL` at the new cursor is R126's. -/
theorem offsetSeeks : Obligations.OffsetSeeks := by
  unfold Obligations.OffsetSeeks
  intro s k a u skip hs hc hu
  constructor
  · intro hneg
    exact State.onUnpacker_of_rejected hs hc hu (Unpacker.offset_eq_rejected.2 ⟨rfl, hneg⟩)
  · intro h0
    rw [← Unpacker.seek_eq hc.1]
    exact State.onUnpacker_of_done hs hc hu (Unpacker.offset_eq_done.2 ⟨h0, rfl, rfl⟩)

/-! ### The extract FSM (R124) -/

/-- The phase after a `next`: another `take` while bits are owed, else `idle` with the answer (R124). -/
def ExtractPhase.owing (need result : Nat) : ExtractPhase :=
  if need = 0 then .idle (.value result) else .take need result

theorem ExtractFsm.run_idle {r : Response} (t : Nat) :
    ExtractFsm.run c width t { regs := u, phase := .idle r } = { regs := u, phase := .idle r } := by
  induction t with
  | zero => rfl
  | succ t ih => exact ih

/-- A `take` and the `next` after it do one turn of the loop of R122. -/
theorem ExtractFsm.tick_tick_take {need result cur : Nat} (h : readCode c u.src u.idx = .ok cur) :
    ((ExtractFsm.mk u (.take need result)).tick c width).tick c width =
      { regs := Unpacker.advance c { u with res := u.res - min need u.res }
        phase := .owing (need - min need u.res)
          ((result <<< min need u.res) ||| takeBits cur u.res (min need u.res)) } := by
  simp only [ExtractFsm.tick, h, ExtractPhase.owing]

/-- With two ticks for each bit owed, the FSM ends where the loop of R122 does: each turn takes a bit at
least. -/
theorem ExtractFsm.run_owing (hsw : 1 ≤ c.sw) (fuel : Nat) :
    ∀ (need result t : Nat) (u y : Unpacker) (v : Nat), need < fuel → 2 * need ≤ t → 1 ≤ u.res →
      u.res ≤ c.sw → Unpacker.extract c fuel need result u = .ok (y, v) →
      ExtractFsm.run c width t { regs := u, phase := .owing need result } =
        { regs := y, phase := .idle (.value v) } := by
  induction fuel with
  | zero => exact fun need _ _ _ _ _ hfuel => absurd hfuel (Nat.not_lt_zero need)
  | succ fuel ih =>
    intro need result t u y v hfuel ht h1 h2 h
    unfold Unpacker.extract at h
    split at h
    · next h0 =>
      cases h
      rw [ExtractPhase.owing, if_pos h0, ExtractFsm.run_idle]
    · next h0 =>
      split at h
      · cases h
      · next cur hcur =>
        obtain ⟨t, rfl⟩ : ∃ t', t = t' + 2 := ⟨t - 2, by omega⟩
        obtain ⟨hr1, hr2, -⟩ := Unpacker.advance_cursor (c := c)
          (u := { u with res := u.res - min need u.res }) hsw (by simp only; omega)
        rw [ExtractPhase.owing, if_neg h0, ExtractFsm.run, ExtractFsm.run, ExtractFsm.tick_tick_take hcur]
        exact ih _ _ _ _ _ _ (by omega) (by omega) hr1 hr2 h

/-- The first tick makes the check on `width` and looks for unread bits (R121). -/
theorem ExtractFsm.tick_start_of_avail (hw : WidthInRange width) (h : 0 < u.avail) :
    (ExtractFsm.start u).tick c width =
      { regs := { u with avail := u.avail - min width u.avail }, phase := .owing (min width u.avail) 0 } := by
  have hneed : min width u.avail ≠ 0 := by have := hw.1; omega
  simp [ExtractFsm.start, ExtractFsm.tick, popCheck_eq_none.2 hw, Unpacker.exhausted, h.ne',
    ExtractPhase.owing, hneed]

/-- Settles O50: the first tick answers what needs no extraction, and the other 64 are two for each of at
most 32 bits. -/
theorem extractFsmIsPop : Obligations.ExtractFsmIsPop := by
  unfold Obligations.ExtractFsmIsPop
  intro c u width hc hu
  obtain ⟨hr1, hr2, -⟩ := hu
  constructor
  · intro e he
    have hfirst : (ExtractFsm.start u).tick c width = { regs := u, phase := .idle (.error e) } := by
      simp only [ExtractFsm.tick, ExtractFsm.start, Unpacker.pop_eq_rejected.1 he]
    rw [ExtractFsm.run, hfirst, ExtractFsm.run_idle]
  · intro u' r hdone
    obtain ⟨hw, ⟨h0, rfl, rfl⟩ | ⟨havail, v, rfl, hx⟩⟩ := Unpacker.pop_eq_done.1 hdone
    · have hfirst : (ExtractFsm.start u').tick c width = { regs := u', phase := .idle .nullAnswer } := by
        simp [ExtractFsm.tick, ExtractFsm.start, popCheck_eq_none.2 hw, Unpacker.exhausted, h0]
      rw [ExtractFsm.run, hfirst, ExtractFsm.run_idle]
    · have hticks : 2 * min width u.avail ≤ 64 :=
        Nat.mul_le_mul_left 2 ((Nat.min_le_left _ _).trans hw.2)
      rw [ExtractFsm.run, ExtractFsm.tick_start_of_avail hw havail]
      exact ExtractFsm.run_owing hc.1 _ _ _ 64 _ _ _ (Nat.lt_succ_self _) hticks hr1 hr2 hx

end Sys2Proof.Machine

/-! SUPPORT. `pop` as reading the bit stream of the source (spec/42_laws.md R158): an UNPACKER that meets the
invariant is its source sought to a bit position (R32), from which `pop` reads on. From it the laws on sequences
of `pop`s and seeks (R153, R154, R156, R159). -/

namespace Sys2Proof.Machine

variable {s : State} {a : Agent} {u y : Unpacker} {c : Cfg} {k pos w width : Nat} {r : Response}

/-! ### `MemRead` and the bits of one symbol (R52 to R54) -/

theorem memRead_lt (c : Cfg) (src : List SymWord) (b n : Nat) : memRead c src b n < 2 ^ n := by
  induction n with
  | zero => exact Nat.one_pos
  | succ n ih =>
    have hbit : streamBit c src (b + n) < 2 := Nat.mod_lt _ two_pos
    rw [memRead_succ, Nat.pow_succ]
    omega

theorem srcCode_of_readCode {src : List SymWord} {j cur : Nat} (h : readCode c src j = .ok cur) :
    srcCode c src j = some cur := by
  unfold readCode at h
  split at h
  · cases h
  · next x hx =>
    split at h
    · cases h
    · next v hv =>
      cases h
      rw [srcCode, hx, Option.bind_some, hv]

/-- The top `take` of the `res` low bits of a code are a slice of it. -/
theorem takeBits_eq {cur res take : Nat} (h : take ≤ res) :
    takeBits cur res take = (cur >>> (res - take)) % 2 ^ take := by
  have hres : 2 ^ res = 2 ^ (res - take) * 2 ^ take := by rw [← pow_add, Nat.sub_add_cancel h]
  rw [takeBits, Nat.shiftRight_eq_div_pow, Nat.shiftRight_eq_div_pow, hres, Nat.mod_mul_right_div_self]

/-- The stream bit `j` bits beyond the cursor, within the cursor's symbol (R53). -/
theorem streamBit_cursor {cur j : Nat} (h2 : u.res ≤ c.sw) (hcur : readCode c u.src u.idx = .ok cur)
    (hj : j < u.res) : streamBit c u.src (u.pos c + j) = (cur.testBit (u.res - (j + 1))).toNat := by
  have h1' : 1 ≤ u.res - j := Nat.sub_pos_of_lt hj
  have h2' : u.res - j ≤ c.sw := (Nat.sub_le _ _).trans h2
  have hpos : u.pos c + j = ({ u with res := u.res - j } : Unpacker).pos c := by
    simp only [Unpacker.pos]; omega
  have hdepth : c.sw - 1 - (c.sw - (u.res - j)) = u.res - (j + 1) := by omega
  rw [streamBit_eq_testBit, hpos, Unpacker.pos_div h1' h2', Unpacker.pos_mod h1' h2', srcCode_of_readCode hcur,
    Option.getD_some, hdepth]

/-- One turn of the loop of R122 reads the stream bits at the cursor, by induction on the number of bits. -/
theorem memRead_cursor {cur : Nat} (h2 : u.res ≤ c.sw) (hcur : readCode c u.src u.idx = .ok cur) (take : Nat)
    (htake : take ≤ u.res) : memRead c u.src (u.pos c) take = takeBits cur u.res take := by
  rw [takeBits_eq htake]
  induction take with
  | zero => simp [Nat.mod_one]
  | succ j ih =>
    have hdepth : u.res - j = u.res - (j + 1) + 1 := by omega
    rw [memRead_succ, ih (by omega), streamBit_cursor h2 hcur htake, hdepth, shiftRight_mod_two_pow_succ]

/-! ### The loop of R122 reads the stream -/

/-- The loop of R122 appends the stream bits at the cursor to what is collected: each turn those of one symbol,
which `MemRead` splits off. -/
theorem Unpacker.extract_value (hsw : 1 ≤ c.sw) (fuel : Nat) :
    ∀ (need acc : Nat) (u y : Unpacker) (v : Nat), need < fuel → 1 ≤ u.res → u.res ≤ c.sw →
      Unpacker.extract c fuel need acc u = .ok (y, v) →
      v = acc * 2 ^ need + memRead c u.src (u.pos c) need := by
  induction fuel with
  | zero => exact fun need _ _ _ _ hfuel => absurd hfuel (Nat.not_lt_zero need)
  | succ fuel ih =>
    intro need acc u y v hfuel h1 h2 h
    unfold Unpacker.extract at h
    split at h
    · next h0 => cases h; simp [h0]
    · split at h
      · cases h
      · next cur hcur =>
        obtain ⟨take, htake⟩ : ∃ take, min need u.res = take := ⟨_, rfl⟩
        simp only [htake] at h
        obtain ⟨rest, rfl⟩ : ∃ rest, need = take + rest := ⟨need - take, by omega⟩
        obtain ⟨hr1, hr2, hpos⟩ := Unpacker.advance_cursor (c := c) (u := { u with res := u.res - take }) hsw
          (by simp only; omega)
        have hstart : ({ u with res := u.res - take } : Unpacker).pos c = u.pos c + take := by
          simp only [Unpacker.pos]; omega
        have hbits := memRead_cursor h2 hcur take (by omega)
        have hrest := ih _ _ _ _ _ (by omega) hr1 hr2 h
        rw [Nat.add_sub_cancel_left, Unpacker.advance_src, hpos, hstart, ← hbits,
          ← Nat.shiftLeft_add_eq_or_of_lt (memRead_lt _ _ _ _), Nat.shiftLeft_eq] at hrest
        rw [hrest, memReadSplits, pow_add, Nat.add_mul, Nat.mul_assoc, Nat.add_assoc]

/-! ### A source sought to a bit position (R32, R126) -/

theorem Unpacker.seek_of_src_eq (h : y.src = u.src) (pos : Nat) : y.seek c pos = u.seek c pos := by
  simp only [Unpacker.seek, Unpacker.len, h]

theorem Unpacker.seek_avail_eq (hsw : 1 ≤ c.sw) (u : Unpacker) (pos : Nat) :
    (u.seek c pos).avail = u.total c - pos := by
  rw [Unpacker.seek_eq hsw]; rfl

theorem Unpacker.seek_res_bounds (hsw : 1 ≤ c.sw) (u : Unpacker) (pos : Nat) :
    1 ≤ (u.seek c pos).res ∧ (u.seek c pos).res ≤ c.sw := by
  have hmod := Nat.mod_lt pos hsw
  rw [Unpacker.seek_res]
  omega

theorem Unpacker.seek_pos (hsw : 1 ≤ c.sw) (u : Unpacker) (pos : Nat) : (u.seek c pos).pos c = pos := by
  have hmod := Nat.mod_lt pos hsw
  rw [Unpacker.pos, Unpacker.seek_idx, Unpacker.seek_res, Nat.sub_sub_self hmod.le, Nat.mul_comm, Nat.div_add_mod]

/-- A seek to the end of the source or beyond leaves no bits (R126). -/
theorem Unpacker.seek_exhausted (hsw : 1 ≤ c.sw) (h : u.total c ≤ pos) : (u.seek c pos).avail = 0 := by
  rw [Unpacker.seek_avail_eq hsw, Nat.sub_eq_zero_of_le h]

/-- The registers are those of a seek to `POS` where `AVAIL` is what lies beyond it (R32). -/
theorem Unpacker.eq_seek (h1 : 1 ≤ u.res) (h2 : u.res ≤ c.sw) (havail : u.avail = u.total c - u.pos c) :
    u = u.seek c (u.pos c) := by
  rw [Unpacker.seek_eq (by omega), Unpacker.pos_div h1 h2, Unpacker.pos_mod h1 h2, Nat.sub_sub_self h2]
  exact congrArg (fun n => Unpacker.mk u.src u.idx u.res n) havail

theorem Unpacker.Inv.eq_seek (hu : u.Inv c) : u = u.seek c (u.pos c) := by
  obtain ⟨h1, h2, havail, -⟩ := Unpacker.inv_iff_pos.1 hu
  exact Unpacker.eq_seek h1 h2 havail

theorem Unpacker.Inv.avail_eq (hu : u.Inv c) : u.avail = u.total c - u.pos c := by
  obtain ⟨-, -, havail, -⟩ := Unpacker.inv_iff_pos.1 hu
  exact havail

theorem Unpacker.Inv.src_decodes (hu : u.Inv c) : (u.src.all fun x => (decodeSymbol c x).isSome) = true := by
  obtain ⟨-, -, -, hall, -⟩ := Unpacker.inv_iff_pos.1 hu
  exact hall

/-! ### `pop` on such registers (R158) -/

/-- The loop of R122, where the bits owed lie in the source, collects them and leaves the source sought beyond
them. -/
theorem Unpacker.extract_eq_seek (hsw : 1 ≤ c.sw) (h1 : 1 ≤ u.res) (h2 : u.res ≤ c.sw)
    (hall : (u.src.all fun x => (decodeSymbol c x).isSome) = true) (hroom : u.pos c + w ≤ u.total c)
    (havail : u.avail = u.total c - (u.pos c + w)) :
    Unpacker.extract c (popFuel w) w 0 u = .ok (u.seek c (u.pos c + w), memRead c u.src (u.pos c) w) := by
  obtain ⟨⟨y, v⟩, hx⟩ := Unpacker.extract_ok hsw (popFuel w) w 0 u h1 h2 hroom hall
  have hfuel : w < popFuel w := Nat.lt_succ_self w
  have hvalue := Unpacker.extract_value hsw _ _ _ _ _ _ hfuel h1 h2 hx
  obtain ⟨hy1, hy2, hypos⟩ := Unpacker.extract_cursor hsw _ _ _ _ _ _ hfuel h1 h2 hx
  obtain ⟨hysrc, hyavail⟩ := Unpacker.extract_src_avail _ _ _ _ _ _ hx
  have hytotal : y.total c = u.total c := by rw [Unpacker.total, Unpacker.len, hysrc]; rfl
  have hy := Unpacker.eq_seek hy1 hy2 (by rw [hyavail, havail, hytotal, hypos])
  rw [hypos, Unpacker.seek_of_src_eq hysrc] at hy
  rw [hx, hy, hvalue, Nat.zero_mul, Nat.zero_add]

/-- From a position inside the source, `pop` reads on by `w'` bits and answers them (R158). -/
theorem Unpacker.pop_seek (hsw : 1 ≤ c.sw) (hall : (u.src.all fun x => (decodeSymbol c x).isSome) = true)
    (hwidth : WidthInRange width) (hpos : pos < u.total c) (hw : min width (u.total c - pos) = w) :
    Unpacker.pop width c (u.seek c pos) = .done (u.seek c (pos + w)) (.value (memRead c u.src pos w)) := by
  obtain ⟨h1, h2⟩ := Unpacker.seek_res_bounds hsw u pos
  have hcursor := Unpacker.seek_pos hsw u pos
  have havail := Unpacker.seek_avail_eq hsw u pos
  have hroom : (u.seek c pos).pos c + w ≤ u.total c := by omega
  have hrest : (u.seek c pos).avail - w = u.total c - ((u.seek c pos).pos c + w) := by omega
  have hx : Unpacker.extract c (popFuel w) w 0 { u.seek c pos with avail := (u.seek c pos).avail - w } =
      .ok (u.seek c ((u.seek c pos).pos c + w), memRead c u.src ((u.seek c pos).pos c) w) :=
    Unpacker.extract_eq_seek hsw h1 h2 hall hroom hrest
  rw [hcursor] at hx
  rw [← havail] at hw
  exact Unpacker.pop_eq_done.2 ⟨hwidth, .inr ⟨by omega, _, rfl, by rw [hw]; exact hx⟩⟩

theorem Unpacker.pop_exhausted (hwidth : WidthInRange width) (h : u.avail = 0) :
    Unpacker.pop width c u = .done u .nullAnswer :=
  Unpacker.pop_eq_done.2 ⟨hwidth, .inl ⟨h, rfl, rfl⟩⟩

/-- After a seek, wherever to, a `pop` of a legal width is done (R160). -/
theorem Unpacker.pop_seek_done (hsw : 1 ≤ c.sw) (hall : (u.src.all fun x => (decodeSymbol c x).isSome) = true)
    (hwidth : WidthInRange width) : ∃ y r, Unpacker.pop width c (u.seek c pos) = .done y r := by
  obtain hpos | hend := Nat.lt_or_ge pos (u.total c)
  · exact ⟨_, _, Unpacker.pop_seek hsw hall hwidth hpos rfl⟩
  · exact ⟨_, _, Unpacker.pop_exhausted hwidth (Unpacker.seek_exhausted hsw hend)⟩

/-- With bits left, a `pop` reads on from `POS` (R158). -/
theorem Unpacker.Inv.pop_eq (hu : u.Inv c) (hsw : 1 ≤ c.sw) (hwidth : WidthInRange width) (h : 0 < u.avail) :
    Unpacker.pop width c u = .done (u.seek c (u.pos c + min width u.avail))
      (.value (memRead c u.src (u.pos c) (min width u.avail))) := by
  have havail := hu.avail_eq
  conv_lhs => rw [hu.eq_seek]
  exact Unpacker.pop_seek hsw hu.src_decodes hwidth (by omega) (by rw [havail])

/-- Settles O22: `Unpacker.Inv.pop_eq`, with the registers of a seek written out; O21 is the null half. -/
theorem popReadsTheStream : Obligations.PopReadsTheStream := by
  unfold Obligations.PopReadsTheStream
  intro s k a u width hs hc hu hinv h1 h32 sw pos w
  have ⟨_, hres, _⟩ := hinv
  have hpos : pos = u.pos a.cfg := Nat.add_sub_assoc hres _
  refine ⟨fun havail => ⟨?_, memRead_lt _ _ _ _, ?_⟩, (popRejectionAndNull s k a u width hs hc hu).2 h1 h32⟩
  · have hrest := hinv.avail_eq
    change pos + u.avail = u.total a.cfg
    omega
  · rw [← Unpacker.seek_eq hc.1, hpos]
    exact State.onUnpacker_of_done hs hc hu (hinv.pop_eq hc.1 ⟨h1, h32⟩ havail)

/-! ### `pop`s and seeks issued one after another -/

/-- Before any answer the machine is as it was. -/
theorem State.perform_answered_nil {regs : Regs} (hk : s.agents[k]? = some a) (h : a.regs = regs) (is : List Instr) :
    (s.answered k a regs []).perform k is = s.perform k is := by
  rw [← h, State.answered_nil hk]

/-- A `pop` that is done leaves the machine answered for the commands after it. -/
theorem State.perform_pop {is : List Instr} (hk : s.agents[k]? = some a) (hc : ConfigOK a.cfg)
    (hu : a.regs = .unpacker u) (h : Unpacker.pop width a.cfg u = .done y r) :
    s.perform k (.pop width :: is) = (s.answered k a (.unpacker y) [r]).perform k is := by
  have ⟨⟨_, h32⟩, _⟩ := Unpacker.pop_eq_done.1 h
  have hwidth : width < 64 := lt_of_le_of_lt h32 (by decide)
  exact State.perform_cons hk hc (decide_eq_true hwidth) (Agent.kind_of_unpacker hu).symm
    (State.onUnpacker_of_done (State.presentNext_active hk _) hc hu h)

/-- A `pop` after commands already answered adds its response to theirs. -/
theorem State.answered_perform_pop {is : List Instr} {rs : List Response} (hk : s.agents[k]? = some a)
    (hc : ConfigOK a.cfg) (h : Unpacker.pop width a.cfg u = .done y r) :
    (s.answered k a (.unpacker u) rs).perform k (.pop width :: is) =
      (s.answered k a (.unpacker y) (rs ++ [r])).perform k is := by
  rw [State.perform_pop (State.answered_agent hk _ _) hc rfl h, State.answered_answered]

/-- An `offset` the port can carry seeks. -/
theorem State.perform_offset {is : List Instr} {skip : Nat} (hk : s.agents[k]? = some a) (hc : ConfigOK a.cfg)
    (hu : a.regs = .unpacker u) (hskip : skip < 2 ^ 47) :
    s.perform k (.offset skip :: is) = (s.answered k a (.unpacker (u.seek a.cfg skip)) [.okay]).perform k is := by
  have hi : (Instr.offset skip).wellFormed = true := by
    simp only [Instr.wellFormed, decide_eq_true_eq]
    omega
  exact State.perform_cons hk hc hi (Agent.kind_of_unpacker hu).symm
    (State.onUnpacker_of_done (State.presentNext_active hk _) hc hu
      (Unpacker.offset_eq_done.2 ⟨Int.natCast_nonneg skip, rfl, rfl⟩))

/-- Every `pop` of a legal width on an exhausted UNPACKER answers null (R121). -/
theorem State.perform_pops_exhausted (hk : s.agents[k]? = some a) (hc : ConfigOK a.cfg) (h0 : u.avail = 0) :
    ∀ (widths : List Nat) (rs : List Response), (∀ w ∈ widths, 1 ≤ w ∧ w ≤ 32) →
      (s.answered k a (.unpacker u) rs).perform k (widths.map .pop) =
        .next (s.answered k a (.unpacker u) (rs ++ widths.map fun _ => .nullAnswer))
  | [], rs, _ => by rw [List.map_nil, List.map_nil, List.append_nil]; rfl
  | w :: ws, rs, hwidths => by
    rw [List.map_cons, State.answered_perform_pop hk hc (Unpacker.pop_exhausted (hwidths w List.mem_cons_self) h0),
      State.perform_pops_exhausted hk hc h0 ws _ fun x hx => hwidths x (List.mem_cons_of_mem w hx),
      List.append_assoc]
    rfl

/-- The answers of `pop`s of these widths that read the stream on from bit `pos`. -/
def popAnswers (c : Cfg) (src : List SymWord) : Nat → List Nat → List Response
  | _, [] => []
  | pos, w :: ws => .value (memRead c src pos w) :: popAnswers c src (pos + w) ws

theorem popAnswers_length (c : Cfg) (src : List SymWord) (widths : List Nat) :
    ∀ pos, (popAnswers c src pos widths).length = widths.length := by
  induction widths with
  | nil => exact fun _ => rfl
  | cons w ws ih => exact fun pos => congrArg (· + 1) (ih (pos + w))

/-- `pop`s of legal widths that the source holds, none clamped, read the stream on from the cursor. -/
theorem State.perform_pops (is : List Instr) : ∀ (widths : List Nat) (s : State) (a : Agent) (pos : Nat),
    s.agents[k]? = some a → ConfigOK a.cfg → a.regs = .unpacker (u.seek a.cfg pos) →
    (u.src.all fun x => (decodeSymbol a.cfg x).isSome) = true → (∀ w ∈ widths, 1 ≤ w ∧ w ≤ 32) →
    pos + widths.sum ≤ u.total a.cfg →
    s.perform k (widths.map .pop ++ is) =
      (s.answered k a (.unpacker (u.seek a.cfg (pos + widths.sum)))
        (popAnswers a.cfg u.src pos widths)).perform k is
  | [], s, a, pos, hk, _, hu, _, _, _ => (State.perform_answered_nil hk hu is).symm
  | w :: ws, s, a, pos, hk, hc, hu, hall, hwidths, hroom => by
    have hw := hwidths w List.mem_cons_self
    rw [List.sum_cons, ← Nat.add_assoc] at hroom ⊢
    rw [List.map_cons, List.cons_append,
      State.perform_pop hk hc hu (Unpacker.pop_seek (w := w) hc.1 hall hw (by omega) (by omega)),
      State.perform_pops is ws _ _ (pos + w) (State.answered_agent hk _ _) hc rfl hall
        (fun x hx => hwidths x (List.mem_cons_of_mem w hx)) hroom, State.answered_answered]
    rfl

/-! ### The laws on sequences (R153, R154, R156, R159) -/

/-- Settles O41: both read on from `POS` by `m + n` bits, and `MemRead` splits (R55). -/
theorem splitLaw : Obligations.SplitLaw := by
  unfold Obligations.SplitLaw
  intro s k a u m n hk hc hu hinv hm hn hmn havail
  have hrest := hinv.avail_eq
  have hseek := hu.trans (congrArg Regs.unpacker hinv.eq_seek)
  have htwo := State.perform_pops [] [m, n] s a _ hk hc hseek hinv.src_decodes
    (by simp only [List.mem_cons, List.not_mem_nil, or_false, forall_eq_or_imp, forall_eq]; omega)
    (by simp only [List.sum_cons, List.sum_nil]; omega)
  have hone := State.perform_pops [] [m + n] s a _ hk hc hseek hinv.src_decodes
    (by simp only [List.mem_singleton, forall_eq]; omega)
    (by simp only [List.sum_cons, List.sum_nil]; omega)
  simp only [popAnswers, memReadSplits _ _ _ m n] at hone
  exact ⟨_, _, _, memRead_lt _ _ _ _, memRead_lt _ _ _ _, htwo, hone⟩

/-- Settles O42: the clamped `pop` reads on to the end of the source, which leaves the UNPACKER exhausted. -/
theorem clampingLaw : Obligations.ClampingLaw := by
  unfold Obligations.ClampingLaw
  intro s k a u width later hk hc hu hinv havail hlt h32 hlater
  have hpop := hinv.pop_eq hc.1 (width := width) ⟨by omega, h32⟩ havail
  rw [Nat.min_eq_right hlt.le] at hpop
  have hend : (u.seek a.cfg (u.pos a.cfg + u.avail)).avail = 0 := by
    have hrest := hinv.avail_eq
    rw [Unpacker.seek_avail_eq hc.1]
    omega
  refine ⟨_, hend, ?_⟩
  rw [State.perform_pop hk hc hu hpop]
  exact State.perform_pops_exhausted hk hc hend later _ hlater

/-- Settles O44: both UNPACKERs are exhausted, the second because a seek to the end or beyond leaves no bits. -/
theorem boundaryLaw : Obligations.BoundaryLaw := by
  unfold Obligations.BoundaryLaw
  intro s k a u skip width hk hc hu h1 h32
  constructor
  · rintro rfl
    exact State.perform_pop (is := []) hk hc hu (Unpacker.pop_exhausted ⟨h1, h32⟩ rfl)
  · intro hend hskip
    have h0 := Unpacker.seek_exhausted hc.1 hend
    exact ⟨_, h0, (State.perform_offset hk hc hu hskip).trans
      (State.answered_perform_pop hk hc (Unpacker.pop_exhausted ⟨h1, h32⟩ h0))⟩

/-- Settles O43: rewinding and popping the chunks away is a seek to the end of the chunks, which is `skip` or,
for a longer `skip`, the end of the source, where both UNPACKERs are exhausted. -/
theorem seekLaw : Obligations.SeekLaw := by
  unfold Obligations.SeekLaw
  intro s k a u skip width chunks hk hc hu hinv hskip h1 h32 hchunks hsum
  have hwidth : WidthInRange width := ⟨h1, h32⟩
  change chunks.sum = min skip (u.total a.cfg) at hsum
  have hseek := State.perform_offset (is := [.pop width]) hk hc hu hskip
  have hrewind : s.perform k (.offset 0 :: chunks.map .pop ++ [.pop width]) =
      (s.answered k a (.unpacker (u.seek a.cfg (min skip (u.total a.cfg))))
        (.okay :: popAnswers a.cfg u.src 0 chunks)).perform k [.pop width] := by
    have hpops := State.perform_pops [.pop width] chunks _ _ 0
      (State.answered_agent hk (.unpacker (u.seek a.cfg 0)) [.okay]) hc rfl
      hinv.src_decodes hchunks (by rw [Agent.answered_cfg]; omega)
    rw [State.answered_answered, Nat.zero_add, hsum] at hpops
    exact (State.perform_offset hk hc hu (Nat.two_pow_pos 47)).trans hpops
  have hlen := popAnswers_length a.cfg u.src chunks 0
  obtain hle | hlt := le_or_gt skip (u.total a.cfg)
  · obtain ⟨y, r, hpop⟩ := Unpacker.pop_seek_done (pos := skip) hc.1 hinv.src_decodes hwidth
    rw [Nat.min_eq_left hle] at hrewind
    exact ⟨y, y, r, _, _, _, hlen, hseek.trans (State.answered_perform_pop hk hc hpop), rfl,
      hrewind.trans (State.answered_perform_pop hk hc hpop), rfl, fun _ => rfl,
      fun h => absurd hle (Nat.not_le.2 h)⟩
  · have h0 := Unpacker.seek_exhausted hc.1 hlt.le
    have h0' := Unpacker.seek_exhausted hc.1 (le_refl (u.total a.cfg))
    rw [Nat.min_eq_right hlt.le] at hrewind
    exact ⟨_, _, _, _, _, _, hlen,
      hseek.trans (State.answered_perform_pop hk hc (Unpacker.pop_exhausted hwidth h0)), rfl,
      hrewind.trans (State.answered_perform_pop hk hc (Unpacker.pop_exhausted hwidth h0')), rfl,
      fun h => absurd h (Nat.not_le.2 hlt), fun _ => ⟨rfl, h0, h0', rfl, fun later hlater =>
        ⟨State.perform_pops_exhausted hk hc h0 later _ hlater,
          State.perform_pops_exhausted hk hc h0' later _ hlater⟩⟩⟩

end Sys2Proof.Machine

/-! SUPPORT. What a PACKER hands out is the bit string of its accepted pushes, padded with zeros on the right to
whole symbols (spec/42_laws.md R152, R157). -/

namespace Sys2Proof.Machine

variable {s : State} {a : Agent} {p : Packer} {c : Cfg} {k t n : Nat} {pend : List SymWord}

/-! ### The padded bit string -/

/-- The length of a bit string of `t` bits padded to whole symbols, `m*SW` with `m = ceil(t / SW)` (R157). -/
def paddedWidth (c : Cfg) (t : Nat) : Nat := (t + c.sw - 1) / c.sw * c.sw

/-- The pad bits are those missing to a whole symbol, if any is begun (R151). -/
theorem paddedWidth_eq (hsw : 1 ≤ c.sw) (t : Nat) : paddedWidth c t = t + (c.sw - t % c.sw) % c.sw := by
  have hdiv := Nat.div_add_mod' t c.sw
  have hmod := Nat.mod_lt t hsw
  obtain h0 | hpos := Nat.eq_zero_or_pos (t % c.sw)
  · have hm : (t + c.sw - 1) / c.sw = t / c.sw :=
      Nat.div_eq_of_lt_le (by omega) (by rw [Nat.add_mul]; omega)
    rw [paddedWidth, hm, h0, Nat.sub_zero, Nat.mod_self]
    omega
  · have hm : (t + c.sw - 1) / c.sw = t / c.sw + 1 :=
      Nat.div_eq_of_lt_le (by rw [Nat.add_mul]; omega) (by rw [Nat.add_mul, Nat.add_mul]; omega)
    rw [paddedWidth, hm, Nat.add_mul, Nat.mod_eq_of_lt (Nat.sub_lt hsw hpos)]
    omega

theorem le_paddedWidth (hsw : 1 ≤ c.sw) (t : Nat) : t ≤ paddedWidth c t := by
  rw [paddedWidth_eq hsw]
  exact Nat.le_add_right _ _

theorem paddedWidth_of_boundary (hsw : 1 ≤ c.sw) (h : t % c.sw = 0) : paddedWidth c t = t := by
  rw [paddedWidth_eq hsw, h, Nat.sub_zero, Nat.mod_self, Nat.add_zero]

theorem paddedWidth_of_partial (hsw : 1 ≤ c.sw) (h : t % c.sw ≠ 0) :
    paddedWidth c t = t + (c.sw - t % c.sw) := by
  rw [paddedWidth_eq hsw, Nat.mod_eq_of_lt (Nat.sub_lt hsw (Nat.pos_of_ne_zero h))]

/-- The bit string of `t` bits `n` padded with zeros on the right to whole symbols (R157). -/
def paddedBits (c : Cfg) (t n : Nat) : Nat := n <<< (paddedWidth c t - t)

theorem paddedBits_lt (hsw : 1 ≤ c.sw) (hn : n < 2 ^ t) : paddedBits c t n < 2 ^ paddedWidth c t := by
  calc n <<< (paddedWidth c t - t)
      < 2 ^ t * 2 ^ (paddedWidth c t - t) := by
        rw [Nat.shiftLeft_eq]
        exact Nat.mul_lt_mul_of_pos_right hn (Nat.two_pow_pos _)
    _ = 2 ^ paddedWidth c t := by rw [← pow_add, Nat.add_sub_cancel' (le_paddedWidth hsw t)]

theorem packedSymbols_eq_wholeSymbols (hsw : 1 ≤ c.sw) (pushes : List (Nat × Nat)) :
    packedSymbols c pushes = wholeSymbols c (paddedWidth c (totalWidth pushes))
      (paddedBits c (totalWidth pushes) (concatValues pushes)) := by
  rw [packedSymbols, wholeSymbols, paddedWidth, Nat.mul_div_cancel _ hsw]
  refine List.map_congr_left fun j _ => ?_
  rw [symbolAt, ← Nat.sub_mul, Nat.sub_sub, Nat.add_comm 1 j]
  rfl

/-- A `flush` hands out the padded bit string: the partial symbol it adds is the last one of it (R152). -/
theorem Packer.flushed_ofBits (hsw : 1 ≤ c.sw) (t n : Nat) :
    (Packer.ofBits c [] t n).flushed c = wholeSymbols c (paddedWidth c t) (paddedBits c t n) := by
  have hmod := Nat.mod_lt t hsw
  rw [Packer.flushed_eq, Packer.ofBits_pend, Packer.ofBits_slot, Packer.ofBits_acc, List.nil_append, paddedBits]
  obtain h0 | hpos := Nat.eq_zero_or_pos (t % c.sw)
  · rw [paddedWidth_of_boundary hsw h0, h0, if_neg (by simp), List.append_nil, Nat.sub_self, Nat.shiftLeft_zero]
  · have hfill : t % c.sw + (c.sw - t % c.sw) = c.sw := Nat.add_sub_cancel' hmod.le
    have hwhole := wholeSymbols_append_of_eq (n := n) hsw (Nat.two_pow_pos (c.sw - t % c.sw)) hfill
    rw [paddedWidth_of_partial hsw hpos.ne', if_pos (by omega), Nat.add_sub_cancel_left]
    simpa only [Nat.add_zero, ← Nat.shiftLeft_eq] using hwhole.symm

/-- `ACC` is a code whose free low bits are zero (R24). -/
theorem Packer.ofBits_acc_lt (hsw : 1 ≤ c.sw) : (Packer.ofBits c pend t n).acc < 2 ^ c.sw := by
  have hmod := Nat.mod_lt t hsw
  calc (n % 2 ^ (t % c.sw)) <<< (c.sw - t % c.sw)
      < 2 ^ (t % c.sw) * 2 ^ (c.sw - t % c.sw) := by
        rw [Nat.shiftLeft_eq]
        exact Nat.mul_lt_mul_of_pos_right (Nat.mod_lt _ (Nat.two_pow_pos _)) (Nat.two_pow_pos _)
    _ = 2 ^ c.sw := by rw [← pow_add, Nat.add_sub_cancel' hmod.le]

theorem Packer.ofBits_acc_mod : (Packer.ofBits c pend t n).acc % 2 ^ (c.sw - t % c.sw) = 0 := by
  rw [Packer.ofBits_acc, Nat.shiftLeft_eq, Nat.mul_mod_left]

/-- `ACC` is the last code of the padded bit string, where a symbol is begun (R157). -/
theorem Packer.ofBits_acc_eq (hsw : 1 ≤ c.sw) :
    (Packer.ofBits c pend t n).acc = if t % c.sw ≠ 0 then paddedBits c t n % 2 ^ c.sw else 0 := by
  have hmod := Nat.mod_lt t hsw
  rw [Packer.ofBits_acc]
  split
  · next h =>
    have hlow := concatBits_mod (n := n) (Nat.two_pow_pos (c.sw - t % c.sw)) (t % c.sw)
    rw [Nat.add_sub_cancel' hmod.le, Nat.add_zero, Nat.add_zero] at hlow
    rw [paddedBits, paddedWidth_of_partial hsw h, Nat.add_sub_cancel_left, Nat.shiftLeft_eq, Nat.shiftLeft_eq, hlow]
  · next h => rw [not_not.1 h, pow_zero, Nat.mod_one, Nat.zero_shiftLeft]

/-! ### The last symbol of a `flush` (R152) -/

/-- Settles O17: the partial symbol a `flush` adds is `ACC`, whose free low bits are zero; the example runs. -/
theorem paddingLaw : Obligations.PaddingLaw := by
  unfold Obligations.PaddingLaw
  refine ⟨fun c p hc hp hpartial => ?_, ?_, fun s k a hk hcfg hp => ?_⟩
  · obtain ⟨-, -, hacc, hfree, -⟩ := hp
    exact ⟨p.acc, by rw [Packer.flushed_eq, if_pos hpartial], hacc, hfree, rfl⟩
  · intro s k a pushes hk hc hp hlegal r hroom hr
    have hmod : r < a.cfg.sw := Nat.mod_lt _ hc.1
    have hslot : a.cfg.sw - r ≠ a.cfg.sw := by omega
    have hrun := State.perform_pushes_flush (is := []) hk hc (hp.trans (congrArg _ (Packer.reset_eq_ofBits a.cfg)))
      hlegal (by simpa using hroom)
    rw [Packer.flushed_eq, Packer.ofBits_slot, if_pos hslot, ← hp, List.nil_append] at hrun
    exact ⟨_, _, Packer.ofBits_acc_lt hc.1, Packer.ofBits_acc_mod, hrun⟩
  · have hc : ConfigOK a.cfg := by rw [hcfg]; decide
    have hflushed : (Packer.ofBits a.cfg [] (totalWidth [(7, 3)]) (concatValues [(7, 3)])).flushed a.cfg = [56] := by
      rw [hcfg]; decide
    have hrun := State.perform_pushes_flush (is := []) (pushes := [(7, 3)]) hk hc
      (hp.trans (congrArg _ (Packer.reset_eq_ofBits a.cfg))) (by decide) (by rw [hcfg]; rfl)
    rw [hflushed, ← hp] at hrun
    exact hrun

/-! ### Pushes accepted and rejected (R157) -/

/-- The accepted ones of some pushes with their responses, as R157's `(v_i, w_i)`. -/
def acceptedPushes (pushes : List (Int × Nat)) (rs : List Response) : List (Nat × Nat) :=
  (pushes.zip rs).filterMap fun x => if x.2.status = .ok then some (x.1.1.toNat, x.1.2) else none

theorem acceptedPushes_cons_okay (x : Int × Nat) (xs : List (Int × Nat)) (rs : List Response) :
    acceptedPushes (x :: xs) (.okay :: rs) = (x.1.toNat, x.2) :: acceptedPushes xs rs := rfl

theorem acceptedPushes_cons_error {e : Status} (he : e ≠ .ok) (x : Int × Nat) (xs : List (Int × Nat))
    (rs : List Response) : acceptedPushes (x :: xs) (.error e :: rs) = acceptedPushes xs rs :=
  List.filterMap_cons_none (if_neg he)

/-- A rejected `push` leaves the registers as they were (R183). -/
theorem State.perform_push_rejected {value : Int} {width : Nat} {e : Status} {is : List Instr}
    (hk : s.agents[k]? = some a) (hc : ConfigOK a.cfg) (hp : a.regs = .packer p)
    (hi : (Instr.push value width).wellFormed = true) (h : pushCheck a.cfg p value width = some e) :
    s.perform k (.push value width :: is) = (s.answered k a (.packer p) [.error e]).perform k is := by
  rw [← hp]
  exact State.perform_cons hk hc hi (Agent.kind_of_packer hp).symm
    (exec_push_rejected (State.presentNext_active hk _) hc hp h)

/-- Pushes the port can carry, issued to a PACKER that holds a bit string, append the values of the accepted ones
to it and nothing for the others (R157). -/
theorem State.perform_presented_pushes : ∀ (pushes : List (Int × Nat)) (s : State) (a : Agent) (t n : Nat),
    s.agents[k]? = some a → ConfigOK a.cfg → a.regs = .packer (Packer.ofBits a.cfg pend t n) →
    (∀ x ∈ pushes, (Instr.push x.1 x.2).wellFormed = true) →
    ∃ rs, rs.length = pushes.length ∧
      ∀ is, s.perform k ((pushes.map fun x => .push x.1 x.2) ++ is) =
        (s.answered k a
          (.packer (Packer.ofBits a.cfg pend (t + totalWidth (acceptedPushes pushes rs))
            ((acceptedPushes pushes rs).foldl (fun n x => n * 2 ^ x.2 + x.1) n))) rs).perform k is
  | [], s, a, t, n, hk, _, hp, _ => ⟨[], rfl, fun is => (State.perform_answered_nil hk hp is).symm⟩
  | (value, width) :: xs, s, a, t, n, hk, hc, hp, hi => by
    have hrest := fun y hy => hi y (List.mem_cons_of_mem (value, width) hy)
    cases hcheck : pushCheck a.cfg (Packer.ofBits a.cfg pend t n) value width with
    | none =>
      obtain ⟨⟨h1, h32⟩, h0, hlt, hroom⟩ := pushCheck_eq_none.1 hcheck
      rw [Packer.length_add_symbolsEmitted_ofBits hc.1] at hroom
      have hvalue : value.toNat < 2 ^ width := by zify; omega
      have hfirst := fun is => State.perform_push (x := (value.toNat, width)) (is := is) hk hc hp
        ⟨h1, h32, hvalue⟩ hroom
      obtain ⟨rs, hlen, hrs⟩ := State.perform_presented_pushes xs _ _ (t + width) (n * 2 ^ width + value.toNat)
        (State.answered_agent hk (.packer (Packer.ofBits a.cfg pend (t + width) (n * 2 ^ width + value.toNat))) [.okay])
        hc rfl hrest
      have htotal : t + totalWidth ((value.toNat, width) :: acceptedPushes xs rs) =
          t + width + totalWidth (acceptedPushes xs rs) := by simp [totalWidth, Nat.add_assoc]
      refine ⟨.okay :: rs, congrArg (· + 1) hlen, fun is => ?_⟩
      rw [Int.toNat_of_nonneg h0] at hfirst
      rw [List.map_cons, List.cons_append, hfirst, hrs, State.answered_answered, acceptedPushes_cons_okay, htotal]
      rfl
    | some e =>
      have hfirst := fun is => State.perform_push_rejected (is := is) hk hc hp (hi _ List.mem_cons_self) hcheck
      have hne : e ≠ .ok := fun h => pushCheck_ne_ok (h ▸ hcheck)
      obtain ⟨rs, hlen, hrs⟩ := State.perform_presented_pushes xs _ _ t n
        (State.answered_agent hk (.packer (Packer.ofBits a.cfg pend t n)) [.error e]) hc rfl hrest
      refine ⟨.error e :: rs, congrArg (· + 1) hlen, fun is => ?_⟩
      rw [List.map_cons, List.cons_append, hfirst, hrs, State.answered_answered, acceptedPushes_cons_error hne]
      rfl

/-- Settles O40: the PACKER holds the bit string `B` of the accepted pushes, whose whole symbols are the first of
the padded one, which is what a `flush` hands out. -/
theorem packerStreamLaw : Obligations.PackerStreamLaw := by
  unfold Obligations.PackerStreamLaw
  intro s k a pushes hk hc hp hi
  obtain ⟨rs, hlen, hrun⟩ := State.perform_presented_pushes pushes s a 0 0 hk hc
    (hp.trans (congrArg _ (Packer.reset_eq_ofBits a.cfg))) hi
  rw [Nat.zero_add] at hrun
  have hpacked := packedSymbols_eq_wholeSymbols hc.1 (acceptedPushes pushes rs)
  rw [← Packer.flushed_ofBits hc.1] at hpacked
  have htake : (packedSymbols a.cfg (acceptedPushes pushes rs)).take
      (totalWidth (acceptedPushes pushes rs) / a.cfg.sw) =
        wholeSymbols a.cfg (totalWidth (acceptedPushes pushes rs)) (concatValues (acceptedPushes pushes rs)) := by
    rw [hpacked, Packer.flushed_eq, Packer.ofBits_pend, List.nil_append, List.take_left' (wholeSymbols_length _ _ _)]
  refine ⟨_, rs, List.append_nil (pushes.map _) ▸ hrun [], hlen, htake.symm, rfl, Packer.ofBits_acc_eq hc.1, ?_⟩
  rw [hrun, State.perform_flush (State.answered_agent hk _ _) hc rfl, State.answered_answered]
  exact hpacked ▸ rfl

end Sys2Proof.Machine

/-! SUPPORT. The round trip (spec/42_laws.md R151): the source an UNPACKER loads from a PACKER's `flush` is the
padded bit string of the pushes, which `pop`s of the same widths cut into the same values. -/

namespace Sys2Proof.Machine

variable {s : State} {a : Agent} {u : Unpacker} {c d : Cfg} {k t n pos : Nat}

/-! ### The bit string of some pushes -/

theorem foldl_concat_eq (pushes : List (Nat × Nat)) : ∀ n,
    pushes.foldl (fun n x => n * 2 ^ x.2 + x.1) n = n * 2 ^ totalWidth pushes + concatValues pushes := by
  induction pushes with
  | nil => intro n; simp [totalWidth, concatValues]
  | cons x xs ih =>
    intro n
    have htotal : totalWidth (x :: xs) = x.2 + totalWidth xs := rfl
    rw [htotal, concatValues, List.foldl_cons, List.foldl_cons, ih, ih]
    ring

/-- The first value is the most significant (R157). -/
theorem concatValues_cons (x : Nat × Nat) (xs : List (Nat × Nat)) :
    concatValues (x :: xs) = x.1 * 2 ^ totalWidth xs + concatValues xs := by
  rw [concatValues, List.foldl_cons, foldl_concat_eq, Nat.zero_mul, Nat.zero_add]

theorem concatValues_lt (pushes : List (Nat × Nat)) (h : ∀ x ∈ pushes, x.1 < 2 ^ x.2) :
    concatValues pushes < 2 ^ totalWidth pushes := by
  induction pushes with
  | nil => exact Nat.one_pos
  | cons x xs ih =>
    have htotal : totalWidth (x :: xs) = x.2 + totalWidth xs := rfl
    have hx : x.1 < 2 ^ x.2 := h x List.mem_cons_self
    have hxs := ih fun y hy => h y (List.mem_cons_of_mem x hy)
    rw [concatValues_cons, htotal, pow_add]
    calc x.1 * 2 ^ totalWidth xs + concatValues xs
        < (x.1 + 1) * 2 ^ totalWidth xs := by rw [Nat.succ_mul]; omega
      _ ≤ 2 ^ x.2 * 2 ^ totalWidth xs := Nat.mul_le_mul_right _ hx

/-- A bit string ends in one way only: the parts above and below `w` bits are determined. -/
theorem concatBits_inj {w m m' l l' : Nat} (hl : l < 2 ^ w) (hl' : l' < 2 ^ w)
    (h : m * 2 ^ w + l = m' * 2 ^ w + l') : m = m' ∧ l = l' := by
  have hhigh := concatBits_shiftRight (n := m) hl 0
  have hhigh' := concatBits_shiftRight (n := m') hl' 0
  rw [Nat.zero_add, Nat.shiftRight_zero] at hhigh hhigh'
  have hm : m = m' := by rw [← hhigh, h, hhigh']
  subst hm
  exact ⟨rfl, Nat.add_left_cancel h⟩

/-- Where the stream from `pos` is the bit string of some pushes, `pop`s of their widths answer their values. -/
theorem popAnswers_eq_values {src : List SymWord} (pushes : List (Nat × Nat)) :
    ∀ pos, (∀ x ∈ pushes, x.1 < 2 ^ x.2) → memRead c src pos (totalWidth pushes) = concatValues pushes →
      popAnswers c src pos (pushes.map (·.2)) = pushes.map fun x => .value x.1 := by
  induction pushes with
  | nil => exact fun _ _ _ => rfl
  | cons x xs ih =>
    intro pos hlegal h
    have htotal : totalWidth (x :: xs) = x.2 + totalWidth xs := rfl
    have hrest := fun y hy => hlegal y (List.mem_cons_of_mem x hy)
    rw [htotal, memReadSplits, concatValues_cons] at h
    obtain ⟨hfirst, hxs⟩ := concatBits_inj (memRead_lt _ _ _ _) (concatValues_lt xs hrest) h
    rw [List.map_cons, List.map_cons, popAnswers, hfirst, ih _ hrest hxs]

/-! ### The source made of whole symbols -/

/-- The symbols of a bit string decode (R150). -/
theorem wholeSymbols_decode (hinv : MappingInverse c d) :
    ((wholeSymbols c t n).all fun x => (decodeSymbol d x).isSome) = true := by
  refine List.all_eq_true.2 fun x hx => ?_
  obtain ⟨j, -, rfl⟩ := List.mem_map.1 hx
  exact Option.isSome_of_eq_some (hinv _ (Nat.mod_lt _ (Nat.two_pow_pos _)))

/-- Decoding the symbols of a bit string of whole symbols gives it back, by induction on their number. -/
theorem streamNat_wholeSymbols (hinv : MappingInverse c d) (hsw : 1 ≤ c.sw) (heq : d.sw = c.sw) (m : Nat) :
    ∀ n, streamNat d (wholeSymbols c (m * c.sw) n) = n % 2 ^ (m * c.sw) := by
  induction m with
  | zero => intro n; simp [streamNat, Nat.mod_one]
  | succ m ih =>
    intro n
    have hlow := Nat.mod_lt n (Nat.two_pow_pos c.sw)
    have hsplit : n = (n / 2 ^ c.sw) * 2 ^ c.sw + n % 2 ^ c.sw := (Nat.div_add_mod' _ _).symm
    have hwhole := wholeSymbols_append_of_eq (t := m * c.sw) (n := n / 2 ^ c.sw) hsw hlow (by simp)
    rw [← hsplit, Nat.mul_mod_left, pow_zero, Nat.mod_one, Nat.zero_mul, Nat.zero_add] at hwhole
    rw [Nat.succ_mul, hwhole, streamNat_concat, hinv _ hlow, ih, Option.getD_some, heq]
    conv_rhs => rw [hsplit, concatBits_mod hlow]

/-- The length in bits of the source made of a padded bit string. -/
theorem wholeSymbols_padded_length (hsw : 1 ≤ c.sw) (heq : d.sw = c.sw) :
    (wholeSymbols c (paddedWidth c t) n).length * d.sw = paddedWidth c t := by
  rw [wholeSymbols_length, heq, paddedWidth, Nat.mul_div_cancel _ hsw]

/-- The stream of the padded bit string is the one integer of it, of which R54 reads slices. -/
theorem memRead_padded (hinv : MappingInverse c d) (hd : ConfigOK d) (heq : d.sw = c.sw) (hn : n < 2 ^ t)
    {b w : Nat} (hroom : b + w ≤ paddedWidth c t) :
    memRead d (wholeSymbols c (paddedWidth c t) (paddedBits c t n)) b w =
      (paddedBits c t n >>> (paddedWidth c t - b - w)) % 2 ^ w := by
  have hsw : 1 ≤ c.sw := heq ▸ hd.1
  have hlen := wholeSymbols_padded_length (t := t) (n := paddedBits c t n) hsw heq
  have hstream : streamNat d (wholeSymbols c (paddedWidth c t) (paddedBits c t n)) = paddedBits c t n :=
    (streamNat_wholeSymbols hinv hsw heq _ _).trans (Nat.mod_eq_of_lt (paddedBits_lt hsw hn))
  have hslice := memReadIsSlice d (wholeSymbols c (paddedWidth c t) (paddedBits c t n)) b w hd
    (wholeSymbols_decode hinv) (by rwa [hlen])
  rwa [hlen, hstream] at hslice

/-- The padded bit string begins with the `t` bits of `n`. -/
theorem memRead_padded_bits (hinv : MappingInverse c d) (hd : ConfigOK d) (heq : d.sw = c.sw) (hn : n < 2 ^ t) :
    memRead d (wholeSymbols c (paddedWidth c t) (paddedBits c t n)) 0 t = n := by
  have hsw : 1 ≤ c.sw := heq ▸ hd.1
  rw [memRead_padded hinv hd heq hn (by rw [Nat.zero_add]; exact le_paddedWidth hsw t), Nat.sub_zero, paddedBits,
    Nat.shiftLeft_shiftRight, Nat.mod_eq_of_lt hn]

/-- It ends with pad bits, all zero. -/
theorem memRead_padded_pad (hinv : MappingInverse c d) (hd : ConfigOK d) (heq : d.sw = c.sw) (hn : n < 2 ^ t) :
    memRead d (wholeSymbols c (paddedWidth c t) (paddedBits c t n)) t (paddedWidth c t - t) = 0 := by
  have hsw : 1 ≤ c.sw := heq ▸ hd.1
  rw [memRead_padded hinv hd heq hn (Nat.add_sub_cancel' (le_paddedWidth hsw t)).le, Nat.sub_self, Nat.shiftRight_zero,
    paddedBits, Nat.shiftLeft_eq, Nat.mul_mod_left]

/-- Within capacity the symbols of a bit string pass both checks of `load` (R120). -/
theorem loadCheck_wholeSymbols (hinv : MappingInverse c d) (hroom : fits d.srcCap (t / c.sw) = true) :
    loadCheck d (wholeSymbols c t n) = none :=
  loadCheck_eq_none.2 ⟨by rwa [wholeSymbols_length], wholeSymbols_decode hinv⟩

/-! ### Loading and popping what was flushed -/

/-- A source just loaded stands at bit 0 (R120). -/
theorem Unpacker.loaded_eq_seek (hsw : 1 ≤ c.sw) (input : List SymWord) :
    Unpacker.loaded c input = (Unpacker.loaded c input).seek c 0 := by
  rw [Unpacker.seek_eq hsw, Nat.zero_div, Nat.zero_mod]
  rfl

/-- A `load` the port can carry, of symbols that decode, within capacity, replaces the source (R120). -/
theorem State.perform_load {input : List SymWord} {is : List Instr} (hk : s.agents[k]? = some a)
    (hc : ConfigOK a.cfg) (hu : a.regs = .unpacker u) (hlen : input.length < 2 ^ 47)
    (hcheck : loadCheck a.cfg input = none) :
    s.perform k (.load input :: is) =
      (s.answered k a (.unpacker (Unpacker.loaded a.cfg input)) [.okay]).perform k is :=
  State.perform_cons hk hc (decide_eq_true hlen) (Agent.kind_of_unpacker hu).symm
    (State.onUnpacker_of_done (State.presentNext_active hk _) hc hu (Unpacker.load_eq_done.2 ⟨hcheck, rfl, rfl⟩))

/-- A `load` and then `pop`s of legal widths that the source holds read it from bit 0. -/
theorem State.perform_load_pops {input : List SymWord} {widths : List Nat} (hk : s.agents[k]? = some a)
    (hc : ConfigOK a.cfg) (hu : a.regs = .unpacker u) (hlen : input.length < 2 ^ 47)
    (hcheck : loadCheck a.cfg input = none) (hwidths : ∀ w ∈ widths, 1 ≤ w ∧ w ≤ 32)
    (hroom : widths.sum ≤ input.length * a.cfg.sw) :
    s.perform k (.load input :: widths.map .pop) =
      .next (s.answered k a (.unpacker ((Unpacker.loaded a.cfg input).seek a.cfg widths.sum))
        (.okay :: popAnswers a.cfg input 0 widths)) := by
  have hpops := State.perform_pops (u := Unpacker.loaded a.cfg input) [] widths _ _ 0
    (State.answered_agent hk (.unpacker (Unpacker.loaded a.cfg input)) [.okay]) hc
    (congrArg _ (Unpacker.loaded_eq_seek hc.1 input)) (loadCheck_eq_none.1 hcheck).2 hwidths
    (by rwa [Nat.zero_add])
  rw [State.answered_answered, List.append_nil, Nat.zero_add] at hpops
  exact (State.perform_load hk hc hu hlen hcheck).trans hpops

/-- Instances with registers of different kinds stand in different places. -/
theorem State.ne_of_regs {j : Nat} {b : Agent} {p : Packer} (hj : s.agents[j]? = some b)
    (hk : s.agents[k]? = some a) (hp : b.regs = .packer p) (hu : a.regs = .unpacker u) : j ≠ k := by
  rintro rfl
  cases hj.symm.trans hk
  cases hp.symm.trans hu

/-- What one instance answers leaves the others as they are. -/
theorem State.answered_agent_ne {j : Nat} (hne : j ≠ k) (hk : s.agents[k]? = some a) (b : Agent) (regs : Regs)
    (rs : List Response) : (s.answered j b regs rs).agents[k]? = some a :=
  (List.getElem?_set_ne hne).trans hk

/-- Settles O45: the `flush` hands out the padded bit string, which `pop`s of the same widths cut into the values
pushed, up to the pad bits. -/
theorem roundTrip : Obligations.RoundTrip := by
  unfold Obligations.RoundTrip
  intro s kp ku ap au u pushes hkp hcp hp hku hcu hu hsw hinv hlegal sw t hpend hsrc hlen
  have hfit : ∀ x ∈ pushes, x.1 < 2 ^ x.2 := fun x hx => have ⟨_, _, h⟩ := hlegal x hx; h
  have hwidths : ∀ w ∈ pushes.map (·.2), 1 ≤ w ∧ w ≤ 32 := List.forall_mem_map.2 fun x hx =>
    have ⟨h1, h32, _⟩ := hlegal x hx
    ⟨h1, h32⟩
  have hbits := concatValues_lt pushes hfit
  have hsymbols : paddedWidth ap.cfg t / ap.cfg.sw = (t + sw - 1) / sw := Nat.mul_div_cancel _ hcp.1
  have hcheck := loadCheck_wholeSymbols (n := paddedBits ap.cfg t (concatValues pushes)) hinv (hsymbols ▸ hsrc)
  have htotal := wholeSymbols_padded_length (t := t) (n := paddedBits ap.cfg t (concatValues pushes)) hcp.1 hsw
  have hvalues := popAnswers_eq_values pushes 0 hfit (memRead_padded_bits hinv hcu hsw hbits)
  have hpad := memRead_padded_pad hinv hcu hsw hbits
  have hport : (wholeSymbols ap.cfg (paddedWidth ap.cfg t)
      (paddedBits ap.cfg t (concatValues pushes))).length < 2 ^ 47 := by rwa [wholeSymbols_length, hsymbols]
  have hflush := State.perform_pushes_flush (is := []) hkp hcp
    (hp.trans (congrArg _ (Packer.reset_eq_ofBits ap.cfg))) hlegal (by simpa using hpend)
  rw [Packer.flushed_ofBits hcp.1, ← hp, List.nil_append] at hflush
  generalize wholeSymbols ap.cfg (paddedWidth ap.cfg t) (paddedBits ap.cfg t (concatValues pushes)) = out at *
  have hku' := State.answered_agent_ne (State.ne_of_regs hkp hku hp hu) hku ap ap.regs
    ((pushes.map fun _ => .okay) ++ [.symbols out])
  have hpops := State.perform_load_pops hku' hcu hu hport hcheck hwidths (htotal ▸ le_paddedWidth hcp.1 t)
  rw [List.map_map, hvalues] at hpops
  have havail : ((Unpacker.loaded au.cfg out).seek au.cfg t).avail = paddedWidth ap.cfg t - t :=
    (Unpacker.seek_avail_eq hcu.1 _ _).trans (congrArg (· - t) htotal)
  refine ⟨out, _, (Unpacker.loaded au.cfg out).seek au.cfg t, hflush, rfl, hpops, ?avail, ?pad⟩
  case avail => rw [havail, paddedWidth_eq hcp.1, Nat.add_sub_cancel_left]
  case pad => rwa [havail, Unpacker.seek_pos hcu.1]

end Sys2Proof.Machine

/-! SUPPORT. How the answer to a command says whether it wrote state: a response with STATUS `OK`, or one of the
codes of R182 alone with the registers as they were (spec/60_exceptions.md R180 to R184). -/

namespace Sys2Proof.Machine

variable {s t : State} {a : Agent} {p : Packer} {u : Unpacker} {c : Cfg} {k n : Nat} {i : Instr}
  {regs : Regs} {r : Response} {codes : List Status}

/-! ### The codes a command can be rejected with (R182) -/

/-- R182's list for each command, without `OK`. -/
def rejectionCodes : Instr → List Status
  | .push _ _ => [.eIllegal, .eWidthRange, .eUnsigned, .eWidthSmall, .eCapacity]
  | .flush => [.eIllegal]
  | .load _ => [.eIllegal, .eCapacity, .eSymbol]
  | .pop _ => [.eIllegal, .eWidthRange]
  | .offset _ => [.eIllegal, .eSeek]

/-- Every command can be sent to a unit of the other kind (R87). -/
theorem eIllegal_mem_rejectionCodes (i : Instr) : .eIllegal ∈ rejectionCodes i := by
  cases i <;> exact List.mem_cons_self

/-- The result of an operation that is done says so, and one that is rejected has one of the `codes`. -/
def UnitResult.AnswersWithin {σ : Type} (codes : List Status) : UnitResult σ → Prop
  | .done _ r => r.status = .ok
  | .rejected e => e ∈ codes
  | .stopped _ => True

theorem Packer.push_answersWithin (value : Int) (width : Nat) (c : Cfg) (p : Packer) :
    (Packer.push value width c p).AnswersWithin (rejectionCodes (.push value width)) := by
  cases h : Packer.push value width c p with
  | done x r =>
    obtain ⟨_, _, rfl⟩ := Packer.push_eq_done.1 h
    exact Response.okay_status
  | rejected e =>
    obtain ⟨rfl, _⟩ | ⟨_, ⟨rfl, _⟩ | ⟨rfl, _⟩ | ⟨rfl, _⟩⟩ := pushCheck_eq_some.1 (Packer.push_eq_rejected.1 h) <;>
      simp [UnitResult.AnswersWithin, rejectionCodes]
  | stopped f => trivial

theorem Packer.flush_answersWithin (c : Cfg) (p : Packer) :
    (Packer.flush c p).AnswersWithin (rejectionCodes .flush) :=
  Response.symbols_status (p.flushed c)

theorem Unpacker.load_answersWithin (input : List SymWord) (c : Cfg) (u : Unpacker) :
    (Unpacker.load input c u).AnswersWithin (rejectionCodes (.load input)) := by
  cases h : Unpacker.load input c u with
  | done y r =>
    obtain ⟨_, _, rfl⟩ := Unpacker.load_eq_done.1 h
    exact Response.okay_status
  | rejected e =>
    obtain ⟨rfl, _⟩ | ⟨rfl, _⟩ := loadCheck_eq_some.1 (Unpacker.load_eq_rejected.1 h) <;>
      simp [UnitResult.AnswersWithin, rejectionCodes]
  | stopped f => trivial

theorem Unpacker.pop_answersWithin (width : Nat) (c : Cfg) (u : Unpacker) :
    (Unpacker.pop width c u).AnswersWithin (rejectionCodes (.pop width)) := by
  cases h : Unpacker.pop width c u with
  | done y r =>
    obtain ⟨_, ⟨_, _, rfl⟩ | ⟨_, v, rfl, _⟩⟩ := Unpacker.pop_eq_done.1 h
    · exact Response.nullAnswer_status
    · exact Response.value_status v
  | rejected e =>
    obtain ⟨rfl, _⟩ := popCheck_eq_some.1 (Unpacker.pop_eq_rejected.1 h)
    simp [UnitResult.AnswersWithin, rejectionCodes]
  | stopped f => trivial

theorem Unpacker.offset_answersWithin (skip : Int) (c : Cfg) (u : Unpacker) :
    (Unpacker.offset skip c u).AnswersWithin (rejectionCodes (.offset skip)) := by
  cases h : Unpacker.offset skip c u with
  | done y r =>
    obtain ⟨_, _, rfl⟩ := Unpacker.offset_eq_done.1 h
    exact Response.okay_status
  | rejected e =>
    obtain ⟨rfl, _⟩ := Unpacker.offset_eq_rejected.1 h
    simp [UnitResult.AnswersWithin, rejectionCodes]
  | stopped f => trivial

/-! ### The answer of a command -/

/-- Instance `a` ends a command with registers `regs` and response `r`: completed with `OK`, or rejected with
one of the `codes` alone and the registers as they were (R183, R186). -/
def Agent.EndsWithin (a : Agent) (codes : List Status) (regs : Regs) (r : Response) : Prop :=
  r.status = .ok ∨ ∃ e ∈ codes, regs = a.regs ∧ r = .error e

theorem Agent.EndsWithin.status_mem (h : a.EndsWithin codes regs r) : r.status ∈ .ok :: codes := by
  obtain hok | ⟨e, he, _, rfl⟩ := h
  · exact List.mem_cons.2 (.inl hok)
  · exact List.mem_cons_of_mem _ he

theorem Agent.EndsWithin.rejected (h : a.EndsWithin codes regs r) (hr : r.status ≠ .ok) :
    regs = a.regs ∧ r = .error r.status := by
  obtain hok | ⟨e, _, hregs, rfl⟩ := h
  · exact absurd hok hr
  · exact ⟨hregs, rfl⟩

theorem UnitResult.EndsIn.endsWithin {σ : Type} {res : UnitResult σ} {toRegs : σ → Regs} {z : σ}
    (h : res.EndsIn toRegs z regs r) (hz : a.regs = toRegs z) (hres : res.AnswersWithin codes) :
    a.EndsWithin codes regs r := by
  obtain ⟨y, rfl, _⟩ | ⟨e, rfl, rfl, rfl⟩ := h
  · exact .inl hres
  · exact .inr ⟨e, hres, hz.symm, rfl⟩

theorem State.onPacker_endsWithin {op : Cfg → Packer → UnitResult Packer}
    (hop : ∀ c p, (op c p).AnswersWithin codes) (hcodes : .eIllegal ∈ codes) (h : s.onPacker n op = .next t)
    (hs : s.active = some (k, a)) : ∃ m regs r, t = s.complete k a m regs r ∧ a.EndsWithin codes regs r := by
  obtain ⟨regs, r, rfl, hother, hown⟩ := State.onPacker_effect h hs
  refine ⟨_, regs, r, rfl, ?_⟩
  cases hregs : a.regs with
  | packer p => exact (hown p hregs).endsWithin hregs (hop a.cfg p)
  | unpacker u =>
    obtain ⟨rfl, rfl⟩ := hother u hregs
    exact .inr ⟨.eIllegal, hcodes, hregs.symm, rfl⟩

theorem State.onUnpacker_endsWithin {op : Cfg → Unpacker → UnitResult Unpacker}
    (hop : ∀ c u, (op c u).AnswersWithin codes) (hcodes : .eIllegal ∈ codes)
    (h : s.onUnpacker n op = .next t) (hs : s.active = some (k, a)) :
    ∃ m regs r, t = s.complete k a m regs r ∧ a.EndsWithin codes regs r := by
  obtain ⟨regs, r, rfl, hother, hown⟩ := State.onUnpacker_effect h hs
  refine ⟨_, regs, r, rfl, ?_⟩
  cases hregs : a.regs with
  | packer p =>
    obtain ⟨rfl, rfl⟩ := hother p hregs
    exact .inr ⟨.eIllegal, hcodes, hregs.symm, rfl⟩
  | unpacker u => exact (hown u hregs).endsWithin hregs (hop a.cfg u)

/-- A command that answers a next state completes with `OK`, or is rejected with one of its own codes. -/
theorem exec_endsWithin (h : exec i s = .next t) (hs : s.active = some (k, a)) :
    ∃ m regs r, t = s.complete k a m regs r ∧ a.EndsWithin (rejectionCodes i) regs r := by
  have hcodes := eIllegal_mem_rejectionCodes i
  cases i with
  | push value width => exact State.onPacker_endsWithin (Packer.push_answersWithin value width) hcodes h hs
  | flush => exact State.onPacker_endsWithin Packer.flush_answersWithin hcodes h hs
  | load input => exact State.onUnpacker_endsWithin (Unpacker.load_answersWithin input) hcodes h hs
  | pop width => exact State.onUnpacker_endsWithin (Unpacker.pop_answersWithin width) hcodes h hs
  | offset skip => exact State.onUnpacker_endsWithin (Unpacker.offset_answersWithin skip) hcodes h hs

/-- Settles O26: by `exec_endsWithin`, whose codes are R182's list command by command. -/
theorem codesOfEachCommand : Obligations.CodesOfEachCommand := by
  unfold Obligations.CodesOfEachCommand
  intro i s t k a h hs
  obtain ⟨m, regs, r, rfl, hends⟩ := exec_endsWithin h hs
  have hstatus := hends.status_mem
  refine ⟨_, r, State.complete_self hs regs r, rfl, ?_⟩
  cases i <;> exact hstatus

/-! ### The answer of a step -/

/-- A step on a command act gives no response, or ends a command: an illegal encoding is rejected (R79). -/
theorem step_command_next (h : step s = .next t) (hs : s.active = some (k, a)) :
    t.agents = s.agents ∨
    ∃ m codes regs r, t = s.complete k a m regs r ∧ a.EndsWithin codes regs r := by
  obtain ⟨_, rfl⟩ | ⟨j, b, hf, _⟩ | ⟨_, rfl⟩ | ⟨j, b, hf, rfl⟩ | ⟨i, _, hi⟩ := step_next h
  · exact .inl rfl
  · obtain ⟨⟨_, hreset⟩, _⟩ := State.fetch_resetInput hf
    obtain ⟨⟨_, hcommand⟩, _⟩ := State.active_eq_some.1 hs
    cases hcommand.symm.trans hreset
  · exact .inl rfl
  · cases hs.symm.trans (State.fetch_illegal hf).1
    exact .inr ⟨1, [.eIllegal], a.regs, _, rfl, .inr ⟨.eIllegal, List.mem_cons_self, rfl, rfl⟩⟩
  · obtain ⟨m, regs, r, ht, hends⟩ := exec_endsWithin hi hs
    exact .inr ⟨m, _, regs, r, ht, hends⟩

/-- Settles O27: a step that gives a response ends a command, and a command that does not end with `OK` keeps
the registers. -/
theorem rejectionWritesNoState : Obligations.RejectionWritesNoState := by
  unfold Obligations.RejectionWritesNoState
  intro s t k a a' r hs h ha' hresp hr
  obtain hagents | ⟨m, codes, regs, r', rfl, hends⟩ := step_command_next h hs
  · rw [hagents, State.active_agent hs] at ha'
    cases ha'
    simp at hresp
  · cases (State.complete_self hs regs r').symm.trans ha'
    obtain rfl : r' = r := by simpa using hresp
    obtain ⟨hregs, herror⟩ := hends.rejected hr
    exact ⟨hregs, rfl, herror⟩

end Sys2Proof.Machine

/-! SUPPORT. The operations that return a unit to its reset state (spec/70_reset_and_hazards.md R211): `flush`
and `load []` always, `offset 0` only where nothing is loaded. -/

namespace Sys2Proof.Machine

variable {c : Cfg}

/-- The empty source is loaded under every configuration: there is no symbol to refuse, and 0 fits every
capacity. -/
theorem loadCheck_nil (c : Cfg) : loadCheck c [] = none :=
  loadCheck_eq_none.2 ⟨fits_eq_true.2 fun m _ => Nat.zero_le m, rfl⟩

/-- A seek to bit 0 leaves the state in which the source was loaded, whatever the cursor before: a seek reads
only the source (R126, R211). -/
theorem Unpacker.seek_zero (hsw : 1 ≤ c.sw) (u : Unpacker) : u.seek c 0 = Unpacker.loaded c u.src :=
  (Unpacker.loaded_eq_seek hsw u.src).symm

/-- The just-loaded state is the reset state exactly where nothing is loaded (R43, R211). -/
theorem Unpacker.loaded_eq_reset_iff {input : List SymWord} :
    Unpacker.loaded c input = Unpacker.reset c ↔ input = [] := by
  constructor
  · exact congrArg Unpacker.src
  · rintro rfl
    exact (Unpacker.reset_eq_loaded c).symm

/-- Settles O37: `flush` hands out the queue and leaves the registers of reset; `load []` leaves the empty source
just loaded, which is reset; `offset 0` leaves the source there is, just loaded. -/
theorem operationsThatReset : Obligations.OperationsThatReset := by
  unfold Obligations.OperationsThatReset
  constructor
  · intro s k a p hk hc hp
    exact ⟨_, State.perform_flush (is := []) hk hc hp⟩
  · intro s k a u hk hc hu
    refine ⟨?load, ?offset, Unpacker.loaded_eq_reset_iff⟩
    case load =>
      rw [Unpacker.reset_eq_loaded]
      exact State.perform_load (is := []) hk hc hu (Nat.two_pow_pos 47) (loadCheck_nil a.cfg)
    case offset =>
      rw [← Unpacker.seek_zero hc.1]
      exact State.perform_offset (is := []) (skip := 0) hk hc hu (Nat.two_pow_pos 47)

end Sys2Proof.Machine
